-- ==== Sys2Proof/Word.lean ====
section
/-! DEFINITION. The widths of the machine: the byte, the 9-bit program counter, the register index (R13, R14). -/

namespace Sys2Proof

/-- A byte 0..255; every value of the instruction set is one, and unsigned (R14). -/
abbrev Byte := BitVec 8

/-- The 9-bit program counter (R23). -/
abbrev PcWord := BitVec 9

/-- The index of a general register, R0 to R7 (R20). -/
abbrev RegIndex := Fin 8

end Sys2Proof
end

