-- ==== Sys2Proof/Config.lean ====
section
/-! DEFINITION. The implementation parameters of R13 and the values they take here. -/

namespace Sys2Proof.Config

/-- MEM_SIZE: addresses 0..255 (R13, R40). -/
def memSize : Nat := 256

/-- What every byte of memory holds before the program image is placed (R40, R190: "zero-initialized"). -/
def memReset : Byte := 0

/-- The reset value of the program counter (R190; UNVERIFIED, the spec's own decision D3, log 12). -/
def pcReset : PcWord := 0

/-- SP_RESET (R13, R24). -/
def spReset : Byte := 255

/-- REG_INIT (R13, R190). DESIGN CHOICE, unsafe (log 1): the spec leaves the reset values of R0..R7 OPEN, and this is
the one value `State.reset` takes for them. `State.construct` takes REG_INIT as an argument, so that a statement can
hold for every value of it. -/
def regInit : Vector Byte 8 := Vector.replicate 8 0

/-- FAULT_EXIT_STATUS (R13, R88, R184; UNVERIFIED for the kinds other than UnrecognizedOpcode: decision D14, log 18). -/
def faultExitStatus : Nat := 1

end Sys2Proof.Config
end

