-- ==== Sys2Proof/Syntax.lean ====
section
/-! DEFINITION. The instructions: one constructor per row of the opcode table (R65), with its operand bytes (R61). -/

namespace Sys2Proof

/-- A register operand as the instruction holds it: the whole operand byte, not masked to 3 bits (R21, R62). -/
abbrev RegOperand := Byte

/-- The 13 instructions with the operand bytes their format gives them (R61, R65, R82). A register operand of 8 or more
is an instruction whose execution raises InvalidRegister (R84). -/
inductive Instr where
  | hlt
  | ldi (ra : RegOperand) (imm : Byte)
  | prn (ra : RegOperand)
  | mul (ra rb : RegOperand)
  | add (ra rb : RegOperand)
  | cmp (ra rb : RegOperand)
  | psh (ra : RegOperand)
  | pop (ra : RegOperand)
  | cal (ra : RegOperand)
  | ret
  | jmp (ra : RegOperand)
  | jeq (ra : RegOperand)
  | jne (ra : RegOperand)
  deriving DecidableEq, Repr

/-- The 13 mnemonics of R65, in the order of the table. -/
inductive Mnemonic where
  | hlt | ldi | prn | mul | add | cmp | psh | pop | cal | ret | jmp | jeq | jne
  deriving DecidableEq, Repr

/-- The four formats of R61. -/
inductive Format where
  | z | r | ri | rr
  deriving DecidableEq, Repr

/-- The three bytes latched at the start of a cycle (R29, R81): the bytes at pc, pc+1 and pc+2. -/
structure FetchLatch where
  opc      : Byte
  operandA : Byte
  operandB : Byte
  deriving DecidableEq, Repr

/-- Why a decoder gives no instruction. -/
inductive DecodeError where
  /-- The opcode byte matches none of the 13 rows (R67, R83). -/
  | unrecognizedOpcode (opcode : Byte)
  deriving DecidableEq, Repr

end Sys2Proof
end

