-- ==== Sys2Proof/WellFormed.lean ====
section
/-! DEFINITION. Which instructions are well formed: every register operand selects one of R0..R7 (R21, R62, R84). -/

namespace Sys2Proof

/-- The register operands of an instruction in the order R84 checks them: ra, then rb. The immediate of LDI is not one. -/
def Instr.registerOperands : Instr → List RegOperand
  | .hlt => []
  | .ldi ra _ => [ra]
  | .prn ra => [ra]
  | .mul ra rb => [ra, rb]
  | .add ra rb => [ra, rb]
  | .cmp ra rb => [ra, rb]
  | .psh ra => [ra]
  | .pop ra => [ra]
  | .cal ra => [ra]
  | .ret => []
  | .jmp ra => [ra]
  | .jeq ra => [ra]
  | .jne ra => [ra]

/-- A register operand is valid only in 0..7 (R21, R62). -/
def RegOperand.valid (b : RegOperand) : Bool := decide (b.toNat < 8)

/-- Every register operand is valid (R84). -/
def Instr.wellFormed (i : Instr) : Bool := i.registerOperands.all RegOperand.valid

/-- The operand R84 reports: the first register operand above 7, in the order ra, rb. -/
def Instr.firstInvalid (i : Instr) : Option RegOperand := i.registerOperands.find? (fun b => !RegOperand.valid b)

end Sys2Proof
end

