-- ==== Sys2Proof/Decode.lean ====
section
/-! DEFINITION. The opcode map (R65), the decoder (R82, R83) and the encoder written from the same table. -/

namespace Sys2Proof

/-- The opcode byte of each row of R65, in the document's binary spelling: bit 7 first (R14; UNVERIFIED reading of the
`0b` literals, log 22). -/
def Mnemonic.opcode : Mnemonic → Byte
  | .hlt => 0b00000001
  | .ldi => 0b10000010
  | .prn => 0b01000111
  | .mul => 0b10100010
  | .add => 0b10100000
  | .cmp => 0b10100111
  | .psh => 0b01000101
  | .pop => 0b01000110
  | .cal => 0b01010000
  | .ret => 0b00010001
  | .jmp => 0b01010100
  | .jeq => 0b01010101
  | .jne => 0b01010110

/-- The format of each row of R65. -/
def Mnemonic.format : Mnemonic → Format
  | .hlt => .z
  | .ldi => .ri
  | .prn => .r
  | .mul => .rr
  | .add => .rr
  | .cmp => .rr
  | .psh => .r
  | .pop => .r
  | .cal => .r
  | .ret => .z
  | .jmp => .r
  | .jeq => .r
  | .jne => .r

/-- The length in bytes of each format (R61). -/
def Format.length : Format → Nat
  | .z => 1
  | .r => 2
  | .ri => 3
  | .rr => 3

/-- The rows of the table (R65). -/
def Mnemonic.all : List Mnemonic :=
  [.hlt, .ldi, .prn, .mul, .add, .cmp, .psh, .pop, .cal, .ret, .jmp, .jeq, .jne]

/-- The row whose opcode equals all 8 bits of the byte, if there is one (R65, R82). -/
def mnemonicOf (opc : Byte) : Option Mnemonic :=
  Mnemonic.all.find? (fun m => decide (m.opcode = opc))

/-- The decoded value of R82: the operands come from the latch as the format says. A byte the format does not use is not
consulted (R68). -/
def Instr.ofOperands : Mnemonic → Byte → Byte → Instr
  | .hlt, _, _ => .hlt
  | .ldi, a, b => .ldi a b
  | .prn, a, _ => .prn a
  | .mul, a, b => .mul a b
  | .add, a, b => .add a b
  | .cmp, a, b => .cmp a b
  | .psh, a, _ => .psh a
  | .pop, a, _ => .pop a
  | .cal, a, _ => .cal a
  | .ret, _, _ => .ret
  | .jmp, a, _ => .jmp a
  | .jeq, a, _ => .jeq a
  | .jne, a, _ => .jne a

/-- The decoder, total on any three bytes (R82), rejecting the bytes of R67 by name. -/
def decode (l : FetchLatch) : Except DecodeError Instr :=
  match mnemonicOf l.opc with
  | some m => .ok (Instr.ofOperands m l.operandA l.operandB)
  | none => .error (.unrecognizedOpcode l.opc)

/-- The row of the table an instruction belongs to. -/
def Instr.mnemonic : Instr → Mnemonic
  | .hlt => .hlt
  | .ldi _ _ => .ldi
  | .prn _ => .prn
  | .mul _ _ => .mul
  | .add _ _ => .add
  | .cmp _ _ => .cmp
  | .psh _ => .psh
  | .pop _ => .pop
  | .cal _ => .cal
  | .ret => .ret
  | .jmp _ => .jmp
  | .jeq _ => .jeq
  | .jne _ => .jne

/-- The operand bytes in memory order (R61, R69). -/
def Instr.operandBytes : Instr → List Byte
  | .hlt => []
  | .ldi ra imm => [ra, imm]
  | .prn ra => [ra]
  | .mul ra rb => [ra, rb]
  | .add ra rb => [ra, rb]
  | .cmp ra rb => [ra, rb]
  | .psh ra => [ra]
  | .pop ra => [ra]
  | .cal ra => [ra]
  | .ret => []
  | .jmp ra => [ra]
  | .jeq ra => [ra]
  | .jne ra => [ra]

/-- The bytes of an instruction: its opcode, then its operands at rising addresses (R45, R60, R61). -/
def encode (i : Instr) : List Byte := i.mnemonic.opcode :: i.operandBytes

/-- The three latched bytes in memory order (R81). -/
def FetchLatch.bytes (l : FetchLatch) : List Byte := [l.opc, l.operandA, l.operandB]

/-- The first three bytes of the number `w`, bit 0 the least significant bit of the first byte, with the bits from
`nbits` on taken as zero. -/
def latchOfTableWord (nbits w : Nat) : FetchLatch :=
  let v := w % 2 ^ nbits
  { opc := BitVec.ofNat 8 v
    operandA := BitVec.ofNat 8 (v / 2 ^ 8)
    operandB := BitVec.ofNat 8 (v / 2 ^ 16) }

/-- What the decoder reads from an instruction whose bits are `w`, numbered as the opcode table numbers them. -/
def decodeTableWord (nbits w : Nat) : Option Instr :=
  match decode (latchOfTableWord nbits w) with
  | .ok i => some i
  | .error _ => none

end Sys2Proof
end

