-- ==== Sys2Proof/Machine/State.lean ====
section
/-! DEFINITION. The complete state of the machine (R20 to R30, R40), the fault kinds (R160, R162), the ways a step can
stop, and the state after reset (R190). -/

namespace Sys2Proof.Machine

/-- The 256-byte memory (R40) in canonical form: the bytes that differ from the reset byte, by rising address. -/
abbrev Memory := List Host.Cell

/-- The canonical form: addresses strictly rising and inside 0..255, no cell equal to what an unlisted address reads
as. Equal memories are then equal lists. -/
abbrev Memory.wf (m : Memory) : Prop :=
  m.Pairwise (fun c d => c.1 < d.1) ∧ ∀ c ∈ m, c.1 < Config.memSize ∧ c.2 ≠ Config.memReset

/-- The register file R0..R7 (R20). -/
abbrev RegFile := Vector Byte 8

/-- The condition flags E, G and L, three independent bits (R25). -/
structure Flags where
  e : Bool
  g : Bool
  l : Bool
  deriving DecidableEq, Repr

/-- The fault kinds of R160, each with its kind-specific field (R162). -/
inductive FaultCause where
  /-- The fetch met an address outside 0..255: `addr` is the first one (R81). -/
  | outOfBounds (addr : Nat)
  /-- A register operand byte above 7 (R84). -/
  | invalidRegister (index : Byte)
  /-- The ALU was given an operation outside ADD, MUL and CMP; no program raises it (R114). -/
  | unsupportedALUOperation (op : Byte)
  /-- A push at sp = 0 (R85, R130). -/
  | stackOverflow (sp : Byte)
  /-- A pop at sp = 255 (R85, R130). -/
  | stackUnderflow (sp : Byte)
  /-- The opcode byte is in no row of the table (R83). -/
  | unrecognizedOpcode (opcode : Byte)
  deriving DecidableEq, Repr

/-- What is recorded with a fault: the address of the faulting instruction's opcode, and the kind with its field (R162). -/
structure FaultRecord where
  pc    : PcWord
  cause : FaultCause
  deriving DecidableEq, Repr

/-- The run state (R27). -/
inductive RunState where
  | running
  | halted
  | faulted (record : FaultRecord)
  deriving DecidableEq, Repr

/-- Everything that persists from one instruction to the next (10_state.md). -/
structure State where
  regs  : RegFile
  pc    : PcWord
  sp    : Byte
  flags : Flags
  mem   : Memory
  run   : RunState
  out   : List Byte
  deriving DecidableEq, Repr

/-- Why no cycle exists. No instruction's meaning raises one of these: a fault of R160 is a next state whose run is
Faulted (log 2). -/
inductive Fault where
  /-- Raised by `step` where run = Halted: a halted machine is terminal (R27, R87, R172). Safe: nothing follows. -/
  | halted
  /-- Raised by `step` where run = Faulted: the run has ended with this record (R27, R161). Safe: nothing follows. -/
  | faulted (record : FaultRecord)
  deriving DecidableEq, Repr

/-- What the model gives no meaning. -/
inductive Refusal where
  /-- Raised by an arm of `exec` that has no meaning yet; no arm has it now. Safe. -/
  | notModelled (mnemonic : String)
  /-- Raised by `buildMachine` for an image of more than 256 bytes: it is rejected at load and the core never starts
  (R181, D13, log 21). Safe. -/
  | imageTooLong (length : Nat)
  deriving DecidableEq, Repr

/-- The machine as it is constructed, before a program image is placed (R190, R191), for a given REG_INIT. -/
def State.construct (regInit : RegFile) : State :=
  { regs := regInit
    pc := Config.pcReset
    sp := Config.spReset
    flags := { e := false, g := false, l := false }
    mem := []
    run := .running
    out := [] }

/-- The machine right after reset with no program image (R190), REG_INIT at the value log 1 names. -/
def State.reset : State := State.construct Config.regInit

end Sys2Proof.Machine
end

