-- ==== Sys2Proof/Machine/Ops.lean ====
section
/-! DEFINITION. The named operations over memory, registers, pc, sp and out, and taking a fault (R15, R16). -/

namespace Sys2Proof.Machine

/-! Memory (R40, R44): one byte at one address. -/

/-- The byte at an address: its cell's value, or the reset byte where no cell lists it (R40, R50). -/
def Memory.read : Memory → Nat → Byte
  | [], _ => Config.memReset
  | (b, v) :: m, a => if b = a then v else Memory.read m a

/-- The memory with no cell at an address. -/
def Memory.erase (m : Memory) (a : Nat) : Memory := m.filter (fun c => decide (c.1 ≠ a))

/-- A cell put in its place by rising address. -/
def Memory.insert : Memory → Nat → Byte → Memory
  | [], a, v => [(a, v)]
  | (b, w) :: m, a, v => if a < b then (a, v) :: (b, w) :: m else (b, w) :: Memory.insert m a v

/-- Storing a byte; storing the reset byte leaves no cell, so that the canonical form is kept. -/
def Memory.write (m : Memory) (a : Nat) (v : Byte) : Memory :=
  if v = Config.memReset then Memory.erase m a else Memory.insert (Memory.erase m a) a v

/-- Storing bytes at rising addresses from `a` on; a byte whose address is outside the memory is stored nowhere. -/
def Memory.place : List Byte → Nat → Memory → Memory
  | [], _, m => m
  | v :: vs, a, m => Memory.place vs (a + 1) (if a < Config.memSize then Memory.write m a v else m)

/-- MemRead(addr, 1): an address outside 0..255 raises OutOfBounds and does not wrap (R16, R43). -/
def memRead (m : Memory) (addr : Nat) : Except FaultCause Byte :=
  if addr < Config.memSize then .ok (Memory.read m addr) else .error (.outOfBounds addr)

/-! General registers (R15, R20): none is hard-wired, none has an alias. -/

/-- x[r]. -/
def readReg (s : State) (r : RegIndex) : Byte := s.regs[r]

/-- x[r] <- v. -/
def writeReg (r : RegIndex) (v : Byte) (s : State) : State := { s with regs := s.regs.set r v }

/-! The program counter (R23, R86, R140). -/

/-- zext_9: a byte as a pc value (R16). -/
def zext9 (v : Byte) : PcWord := v.setWidth 9

/-- pc <- pc + n. From a pc that a fetch accepts (at most 253) it does not wrap (R23; for other pc values, log 4). -/
def advance (n : Nat) (s : State) : State := { s with pc := s.pc + BitVec.ofNat 9 n }

/-- pc <- zext_9(target) (R140). -/
def jump (target : Byte) (s : State) : State := { s with pc := zext9 target }

/-- pc + 2 as the byte CAL pushes (R141). From a pc that a fetch accepts it fits in a byte (for other pc values, log 4). -/
def returnAddress (s : State) : Byte := BitVec.ofNat 8 (s.pc.toNat + 2)

/-! Flags, output and run state. -/

/-- E, G and L written together (R25, R113). -/
def setFlags (f : Flags) (s : State) : State := { s with flags := f }

/-- Output(v): out <- out ++ [v] (R16, R28, R101). -/
def output (v : Byte) (s : State) : State := { s with out := s.out ++ [v] }

/-- run <- Halted (R87). -/
def halt (s : State) : State := { s with run := .halted }

/-- TAKING A FAULT, the one way any fault of R160 is taken: run <- Faulted(kind, info), the info holds the pc of the
faulting instruction, and nothing else changes (R16, R161, R162; UNVERIFIED: precision is decision D8, log 15). There is
no handler, no saved status and no return from it (R166, R167). -/
def raise (c : FaultCause) (s : State) : Host.Outcome State Fault Refusal :=
  .next { s with run := .faulted { pc := s.pc, cause := c } }

/-! The stack (R130 to R132; UNVERIFIED: the order of update and access is decision D12, log 17). -/

/-- The address a push stores to: the decremented sp (R131). -/
def pushAddress (s : State) : Nat := (s.sp - 1).toNat

/-- Push(v): sp <- sp - 1, then MemWrite(sp, 1, v) (R131). The address is a byte, so it is always in range (R43). -/
def push (v : Byte) (s : State) : State :=
  { s with sp := s.sp - 1, mem := Memory.write s.mem (pushAddress s) v }

/-- The byte Pop() returns: the one at sp (R132). -/
def stackTop (s : State) : Byte := Memory.read s.mem s.sp.toNat

/-- What Pop() does to the state: sp <- sp + 1; the byte stays in memory (R132). -/
def dropTop (s : State) : State := { s with sp := s.sp + 1 }

/-- The check before a push: StackOverflow at sp = 0 (R85, R130; the name is decision D11, log 17). -/
def withStackRoom (s : State) (k : Host.Outcome State Fault Refusal) : Host.Outcome State Fault Refusal :=
  if s.sp = 0 then raise (.stackOverflow s.sp) s else k

/-- The check before a pop: StackUnderflow at sp = 255 (R85, R130; the name is decision D11, log 17). -/
def withStackItem (s : State) (k : Host.Outcome State Fault Refusal) : Host.Outcome State Fault Refusal :=
  if s.sp = 255 then raise (.stackUnderflow s.sp) s else k

end Sys2Proof.Machine
end

