-- ==== Sys2Proof/Machine/Operands.lean ====
section
/-! DEFINITION. The operand forms: a register operand is a whole byte that must be in 0..7 (R21, R62, R84). An immediate
is the byte itself (R62); there is no other form. -/

namespace Sys2Proof.Machine

/-- The register an operand byte selects: none for 8..255 (R21). -/
def regIndex (b : RegOperand) : Option RegIndex :=
  if h : b.toNat < 8 then some ⟨b.toNat, h⟩ else none

/-- Register-operand validation (R84): InvalidRegister with the operand byte, or the execution goes on with the register. -/
def withRegister (b : RegOperand) (s : State) (k : RegIndex → Host.Outcome State Fault Refusal) :
    Host.Outcome State Fault Refusal :=
  match regIndex b with
  | some r => k r
  | none => raise (.invalidRegister b) s

end Sys2Proof.Machine
end

