-- ==== Sys2Proof/Machine/Flags.lean ====
section
/-! DEFINITION. The one flag computation: CMP's (R25, R113). No other instruction computes a flag (R111, R112, R115). -/

namespace Sys2Proof.Machine

/-- All three flags cleared and exactly one set: E if equal, G if a > b, L if less, as unsigned bytes (R113; UNVERIFIED:
unsigned is decision D2, log 11). -/
def compareFlags (a b : Byte) : Flags :=
  if a = b then { e := true, g := false, l := false }
  else if a.toNat > b.toNat then { e := false, g := true, l := false }
  else { e := false, g := false, l := true }

end Sys2Proof.Machine
end

