-- ==== Sys2Proof/Machine/Alu.lean ====
section
/-! DEFINITION. The ALU and its three instructions ADD, MUL and CMP (42_alu.md). -/

namespace Sys2Proof.Machine

/-- What the ALU hands back (R110): an 8-bit result for register ra, or the three flag bits. -/
inductive AluResult where
  | value (v : Byte)
  | flags (f : Flags)
  deriving DecidableEq, Repr

/-- The ALU (R110 to R115). The operation is the opcode byte the decoder selects it with (R110; DESIGN CHOICE, log 5). ADD
and MUL compute on unbounded integers and keep the result modulo 256 (R22, R115; UNVERIFIED: decision D1, log 10). Any
other operation is UnsupportedALUOperation, which no program can raise (R114). -/
def aluApply (op a b : Byte) : Except FaultCause AluResult :=
  if op = Mnemonic.opcode .add then .ok (.value (BitVec.ofNat 8 (a.toNat + b.toNat)))
  else if op = Mnemonic.opcode .mul then .ok (.value (BitVec.ofNat 8 (a.toNat * b.toNat)))
  else if op = Mnemonic.opcode .cmp then .ok (.flags (compareFlags a b))
  else .error (.unsupportedALUOperation op)

/-- The control unit's part of an ALU instruction: both operands validated, ra first (R84), both registers read before
the result is written, and pc <- pc + 3 (R110). -/
def execAlu (op : Byte) (ra rb : RegOperand) (s : State) : Host.Outcome State Fault Refusal :=
  withRegister ra s fun a => withRegister rb s fun b =>
    match aluApply op (readReg s a) (readReg s b) with
    | .ok (.value v) => .next (advance 3 (writeReg a v s))
    | .ok (.flags f) => .next (advance 3 (setFlags f s))
    | .error c => raise c s

/-- ADD: x[ra] <- (x[ra] + x[rb]) mod 256; no flag (R111). -/
def execAdd (ra rb : RegOperand) (s : State) : Host.Outcome State Fault Refusal :=
  execAlu (Mnemonic.opcode .add) ra rb s

/-- MUL: x[ra] <- (x[ra] * x[rb]) mod 256; no flag (R112). -/
def execMul (ra rb : RegOperand) (s : State) : Host.Outcome State Fault Refusal :=
  execAlu (Mnemonic.opcode .mul) ra rb s

/-- CMP: E, G and L from the comparison of x[ra] with x[rb]; no register (R113). -/
def execCmp (ra rb : RegOperand) (s : State) : Host.Outcome State Fault Refusal :=
  execAlu (Mnemonic.opcode .cmp) ra rb s

end Sys2Proof.Machine
end

