-- ==== Sys2Proof/Machine/ControlTransfer.lean ====
section
/-! DEFINITION. CAL, RET, JMP, JEQ and JNE (44_control_transfer.md). A target is an absolute byte address (R140). -/

namespace Sys2Proof.Machine

/-- CAL: the target x[ra] is read before the push of pc + 2; then pc <- target (R141). -/
def execCal (ra : RegOperand) (s : State) : Host.Outcome State Fault Refusal :=
  withRegister ra s fun a => withStackRoom s (.next (jump (readReg s a) (push (returnAddress s) s)))

/-- RET: pc <- Pop() (R142). -/
def execRet (s : State) : Host.Outcome State Fault Refusal :=
  withStackItem s (.next (jump (stackTop s) (dropTop s)))

/-- JMP: pc <- x[ra] (R143). -/
def execJmp (ra : RegOperand) (s : State) : Host.Outcome State Fault Refusal :=
  withRegister ra s fun a => .next (jump (readReg s a) s)

/-- A conditional jump: to x[ra] where the condition holds, else pc + 2; the operand is validated on both paths (R84,
R144; UNVERIFIED: validation where not taken is decision D10, log 16). -/
def jumpIf (taken : Bool) (ra : RegOperand) (s : State) : Host.Outcome State Fault Refusal :=
  withRegister ra s fun a => .next (if taken then jump (readReg s a) s else advance 2 s)

/-- JEQ: taken where E = 1 (R145). -/
def execJeq (ra : RegOperand) (s : State) : Host.Outcome State Fault Refusal := jumpIf s.flags.e ra s

/-- JNE: taken where E = 0 (R146). -/
def execJne (ra : RegOperand) (s : State) : Host.Outcome State Fault Refusal := jumpIf (!s.flags.e) ra s

end Sys2Proof.Machine
end

