-- ==== Sys2Proof/Machine/ControlUnit.lean ====
section
/-! DEFINITION. HLT (40_control_unit.md R87). -/

namespace Sys2Proof.Machine

/-- HLT: run <- Halted; pc and everything else unchanged (R87; UNVERIFIED: the pc is decision D5, log 13). -/
def execHlt (s : State) : Host.Outcome State Fault Refusal := .next (halt s)

end Sys2Proof.Machine
end

