-- ==== Sys2Proof/Machine/DataMovement.lean ====
section
/-! DEFINITION. LDI and PRN (41_data_movement.md). -/

namespace Sys2Proof.Machine

/-- LDI: x[ra] <- imm; pc <- pc + 3 (R100). -/
def execLdi (ra : RegOperand) (imm : Byte) (s : State) : Host.Outcome State Fault Refusal :=
  withRegister ra s fun a => .next (advance 3 (writeReg a imm s))

/-- PRN: Output(x[ra]); pc <- pc + 2 (R101). -/
def execPrn (ra : RegOperand) (s : State) : Host.Outcome State Fault Refusal :=
  withRegister ra s fun a => .next (advance 2 (output (readReg s a) s))

end Sys2Proof.Machine
end

