-- ==== Sys2Proof/Machine/Stack.lean ====
section
/-! DEFINITION. PSH and POP (43_stack.md). The register operand is checked before the stack bound (R80, R164). -/

namespace Sys2Proof.Machine

/-- PSH: Push(x[ra]); pc <- pc + 2 (R133). -/
def execPsh (ra : RegOperand) (s : State) : Host.Outcome State Fault Refusal :=
  withRegister ra s fun a => withStackRoom s (.next (advance 2 (push (readReg s a) s)))

/-- POP: x[ra] <- Pop(); pc <- pc + 2 (R134). -/
def execPop (ra : RegOperand) (s : State) : Host.Outcome State Fault Refusal :=
  withRegister ra s fun a => withStackItem s (.next (advance 2 (writeReg a (stackTop s) (dropTop s))))

end Sys2Proof.Machine
end

