-- ==== Sys2Proof/Machine/Fetch.lean ====
section
/-! DEFINITION. The fetch and decode phases of the cycle (R80 to R83). -/

namespace Sys2Proof.Machine

/-- Fetch (R81): the bytes at pc, pc+1 and pc+2, whatever the instruction's length. The first address out of range, in
this order, is the one reported (UNVERIFIED: decision D21, log 20). -/
def fetch (s : State) : Except FaultCause FetchLatch := do
  let opc ← memRead s.mem s.pc.toNat
  let operandA ← memRead s.mem (s.pc.toNat + 1)
  let operandB ← memRead s.mem (s.pc.toNat + 2)
  return { opc := opc, operandA := operandA, operandB := operandB }

/-- The fault a rejected opcode raises (R83). -/
def decodeCause : DecodeError → FaultCause
  | .unrecognizedOpcode opc => .unrecognizedOpcode opc

/-- The fetch, then the decode (R80): the fetch's fault comes first (R83, R164). -/
def fetchDecode (s : State) : Except FaultCause Instr :=
  match fetch s with
  | .error c => .error c
  | .ok l =>
    match decode l with
    | .error e => .error (decodeCause e)
    | .ok i => .ok i

end Sys2Proof.Machine
end

