-- ==== Sys2Proof/Machine/Step.lean ====
section
/-! DEFINITION. One cycle as one indivisible step (R80, R198), and where the next instruction is fetched from. -/

namespace Sys2Proof.Machine

/-- One cycle (R80): fetch, decode, then the checks and the execute phase. It exists only where run = Running; Halted
and Faulted are terminal (R27, R172; log 2). -/
def step (s : State) : Host.Outcome State Fault Refusal :=
  match s.run with
  | .halted => .fault .halted
  | .faulted record => .fault (.faulted record)
  | .running =>
    match fetchDecode s with
    | .error c => raise c s
    | .ok i => exec i s

/-- The state with the instruction whose bits are `w` stored at pc, pc+1 and pc+2, where the fetch reads it (R81; log 3). -/
def State.withFetchWord (s : State) (nbits w : Nat) : State :=
  { s with mem := Memory.place (latchOfTableWord nbits w).bytes s.pc.toNat s.mem }

end Sys2Proof.Machine
end

