-- ==== Sys2Proof/Machine/Assembly.lean ====
section
/-! DEFINITION. The assembly syntax of R69 as data: lines, labels and `.byte`, what they assemble to, and how each is
spelled. It is notation for the bytes and adds no behaviour (D19; log 24). -/

namespace Sys2Proof.Machine

/-- The immediate of LDI: a number, or a label (R69). -/
inductive AsmImm where
  | num (v : Byte)
  | label (name : String)
  deriving DecidableEq, Repr

/-- One line of assembly (R69). Registers are R0 to R7; only `byte` can spell an illegal opcode or a register index of 8 or
more. -/
inductive AsmLine where
  | label (name : String)
  | byte (v : Byte)
  | hlt
  | ret
  | ldi (ra : RegIndex) (imm : AsmImm)
  | prn (ra : RegIndex)
  | mul (ra rb : RegIndex)
  | add (ra rb : RegIndex)
  | cmp (ra rb : RegIndex)
  | psh (ra : RegIndex)
  | pop (ra : RegIndex)
  | cal (ra : RegIndex)
  | jmp (ra : RegIndex)
  | jeq (ra : RegIndex)
  | jne (ra : RegIndex)
  deriving DecidableEq, Repr

/-- The operand byte of a register (R62). -/
def regByte (r : RegIndex) : RegOperand := BitVec.ofNat 8 r.val

/-- The byte a label stands for, in the list of labels of the source (R69). DESIGN CHOICE (log 24), where R69 says nothing:
a label defined more than once names the address of its first definition; one that is not defined, or whose address is
above 255, has no byte. -/
def labelValue (labels : List (String × Nat)) (name : String) : Option Byte :=
  match labels.find? (fun p => p.1 == name) with
  | some p => if p.2 < 256 then some (BitVec.ofNat 8 p.2) else none
  | none => none

/-- The value of an immediate; none for a label that is not defined (R69). -/
def immValue (labels : List (String × Nat)) : AsmImm → Option Byte
  | .num v => some v
  | .label name => labelValue labels name

/-- The bytes of one line, operands in the order of the syntax (R69); none for an undefined label. -/
def lineBytes (labels : List (String × Nat)) : AsmLine → Option (List Byte)
  | .label _ => some []
  | .byte v => some [v]
  | .hlt => some (encode .hlt)
  | .ret => some (encode .ret)
  | .ldi ra imm => (immValue labels imm).map fun v => encode (.ldi (regByte ra) v)
  | .prn ra => some (encode (.prn (regByte ra)))
  | .mul ra rb => some (encode (.mul (regByte ra) (regByte rb)))
  | .add ra rb => some (encode (.add (regByte ra) (regByte rb)))
  | .cmp ra rb => some (encode (.cmp (regByte ra) (regByte rb)))
  | .psh ra => some (encode (.psh (regByte ra)))
  | .pop ra => some (encode (.pop (regByte ra)))
  | .cal ra => some (encode (.cal (regByte ra)))
  | .jmp ra => some (encode (.jmp (regByte ra)))
  | .jeq ra => some (encode (.jeq (regByte ra)))
  | .jne ra => some (encode (.jne (regByte ra)))

/-- How many bytes a line takes (R61, R69). -/
def lineLength : AsmLine → Nat
  | .label _ => 0
  | .byte _ => 1
  | .hlt => 1
  | .ret => 1
  | .ldi _ _ => 3
  | .mul _ _ => 3
  | .add _ _ => 3
  | .cmp _ _ => 3
  | .prn _ => 2
  | .psh _ => 2
  | .pop _ => 2
  | .cal _ => 2
  | .jmp _ => 2
  | .jeq _ => 2
  | .jne _ => 2

/-- The first pass: a label names the address of the next byte (R69). -/
def labelsFrom : List AsmLine → Nat → List (String × Nat)
  | [], _ => []
  | .label name :: rest, at_ => (name, at_) :: labelsFrom rest at_
  | line :: rest, at_ => labelsFrom rest (at_ + lineLength line)

/-- The second pass: the bytes of the lines in order (R69). -/
def bytesOf (labels : List (String × Nat)) : List AsmLine → Option (List Byte)
  | [] => some []
  | line :: rest =>
    match lineBytes labels line, bytesOf labels rest with
    | some bs, some more => some (bs ++ more)
    | _, _ => none

/-- A program assembled from address 0 (R69, R181). -/
def assemble (lines : List AsmLine) : Option (List Byte) := bytesOf (labelsFrom lines 0) lines

/-- The spelling of a register: R0 to R7 (R69). -/
def regText (r : RegIndex) : String := "R" ++ toString r.val

/-- The spelling of an immediate: a decimal number or a label (R69). -/
def immText : AsmImm → String
  | .num v => toString v.toNat
  | .label name => name

/-- The spelling of a line: the mnemonic of R65, then its operands separated by commas (R69, R70). -/
def lineText : AsmLine → String
  | .label name => name ++ ":"
  | .byte v => ".byte " ++ toString v.toNat
  | .hlt => "HLT"
  | .ret => "RET"
  | .ldi ra imm => "LDI " ++ regText ra ++ ", " ++ immText imm
  | .prn ra => "PRN " ++ regText ra
  | .mul ra rb => "MUL " ++ regText ra ++ ", " ++ regText rb
  | .add ra rb => "ADD " ++ regText ra ++ ", " ++ regText rb
  | .cmp ra rb => "CMP " ++ regText ra ++ ", " ++ regText rb
  | .psh ra => "PSH " ++ regText ra
  | .pop ra => "POP " ++ regText ra
  | .cal ra => "CAL " ++ regText ra
  | .jmp ra => "JMP " ++ regText ra
  | .jeq ra => "JEQ " ++ regText ra
  | .jne ra => "JNE " ++ regText ra

end Sys2Proof.Machine
end

