-- ==== Sys2Proof/Machine/HostInterface.lean ====
section
/-! DEFINITION. What passes between the core and the host (R180): program load, the run, the end status, the fault codes
and the trace hook. -/

namespace Sys2Proof.Machine

/-- A new machine with a program image placed at address 0 and zeros above it (R181, R190, R191). An image of more than
256 bytes is rejected and the core never starts (UNVERIFIED: decision D13, log 21). -/
def buildMachine (regInit : RegFile) (image : List Byte) : Host.Outcome State Fault Refusal :=
  if image.length ≤ Config.memSize then
    .next { State.construct regInit with mem := Memory.place image 0 (State.construct regInit).mem }
  else .refused (.imageTooLong image.length)

/-- The loop of R88, at most `fuel` cycles of it: it ends where run leaves Running (log 8). -/
def runToEnd : Nat → State → State
  | 0, s => s
  | fuel + 1, s =>
    match step s with
    | .next t => runToEnd fuel t
    | .fault _ => s
    | .refused _ => s

/-- The exit status (R88, R184): none while the machine runs (UNVERIFIED: 1 for every fault kind is decision D14, log 18). -/
def exitStatus : RunState → Option Nat
  | .running => none
  | .halted => some 0
  | .faulted _ => some Config.faultExitStatus

/-- What the host receives at the end of a run (R180, R184): the run state, the exit status and the bytes emitted. -/
structure EndStatus where
  run  : RunState
  exit : Nat
  out  : List Byte
  deriving DecidableEq, Repr

/-- The end status of a machine that has left Running (R184). -/
def endStatus (s : State) : Option EndStatus :=
  match exitStatus s.run with
  | none => none
  | some n => some { run := s.run, exit := n, out := s.out }

/-- The numeric code of a fault kind (R160; UNVERIFIED: decision D7, log 18). -/
def faultCode : FaultCause → Nat
  | .outOfBounds _ => 1
  | .invalidRegister _ => 2
  | .unsupportedALUOperation _ => 3
  | .stackOverflow _ => 4
  | .stackUnderflow _ => 5
  | .unrecognizedOpcode _ => 6

/-- What the trace hook is given: pc, the three bytes at pc, pc+1 and pc+2, and the eight registers (R185), and the flags G
and L, of which it is the only observer (R25). DEDUCED (log 7): one record holds what the two rules give it. -/
structure TraceRecord where
  pc    : PcWord
  byte0 : Option Byte
  byte1 : Option Byte
  byte2 : Option Byte
  regs  : RegFile
  g     : Bool
  l     : Bool
  deriving DecidableEq, Repr

/-- A byte as the trace hook sees it: absent beyond 255 (R185, D26). -/
def traceByte (m : Memory) (a : Nat) : Option Byte :=
  if a < Config.memSize then some (Memory.read m a) else none

/-- The trace hook's view at the start of a cycle, before the fetch: it reads state and writes none (R185, R25,
D26; log 7). -/
def traceView (s : State) : TraceRecord :=
  { pc := s.pc
    byte0 := traceByte s.mem s.pc.toNat
    byte1 := traceByte s.mem (s.pc.toNat + 1)
    byte2 := traceByte s.mem (s.pc.toNat + 2)
    regs := s.regs
    g := s.flags.g
    l := s.flags.l }

/-- What an observer is given over at most `fuel` cycles: one record at the start of each cycle (R185). -/
def runTrace : Nat → State → List TraceRecord
  | 0, _ => []
  | fuel + 1, s =>
    match step s with
    | .next t => traceView s :: runTrace fuel t
    | .fault _ => []
    | .refused _ => []

end Sys2Proof.Machine
end

