-- ==== Sys2Proof/Safety.lean ====
section
/-! DEFINITION. What counts as a safe run, the invariant of the machine, and the words the statements use. -/

namespace Sys2Proof.Machine

/-- The instructions that push (R85). -/
def pushes : Instr → Bool
  | .psh _ => true
  | .cal _ => true
  | .hlt => false
  | .ldi _ _ => false
  | .prn _ => false
  | .mul _ _ => false
  | .add _ _ => false
  | .cmp _ _ => false
  | .pop _ => false
  | .ret => false
  | .jmp _ => false
  | .jeq _ => false
  | .jne _ => false

/-- The instructions that pop (R85). -/
def pops : Instr → Bool
  | .pop _ => true
  | .ret => true
  | .hlt => false
  | .ldi _ _ => false
  | .prn _ => false
  | .mul _ _ => false
  | .add _ _ => false
  | .cmp _ _ => false
  | .psh _ => false
  | .cal _ => false
  | .jmp _ => false
  | .jeq _ => false
  | .jne _ => false

/-- The check phases R84 and R85 of a decoded instruction, in their order: the first that fails. -/
def checkFault (i : Instr) (s : State) : Option FaultCause :=
  match i.firstInvalid with
  | some b => some (.invalidRegister b)
  | none =>
    if pushes i = true ∧ s.sp = 0 then some (.stackOverflow s.sp)
    else if pops i = true ∧ s.sp = 255 then some (.stackUnderflow s.sp)
    else none

/-- The four check phases of a cycle in the order of R80 and R164: the first fault, if any. -/
def cycleFault (s : State) : Option FaultCause :=
  match fetchDecode s with
  | .error c => some c
  | .ok i => checkFault i s

/-- A state of a safe run: it has not faulted. -/
def State.safe (s : State) : Prop := ∀ record, s.run ≠ .faulted record

/-- A run of `k` cycles or fewer from `s` that meets no fault. -/
def SafeRun (k : Nat) (s : State) : Prop := (runToEnd k s).safe

/-- The outcome is that the fault `c` was raised (R16, R161). -/
def Raises (o : Host.Outcome State Fault Refusal) (c : FaultCause) : Prop :=
  ∃ t record, o = .next t ∧ t.run = .faulted record ∧ record.cause = c

/-- At most one of E, G and L is set (R25: none before the first CMP, exactly one after any). -/
abbrev Flags.atMostOne (f : Flags) : Prop :=
  ¬ (f.e = true ∧ f.g = true) ∧ ¬ (f.e = true ∧ f.l = true) ∧ ¬ (f.g = true ∧ f.l = true)

/-- Exactly one of E, G and L is set (R25, R113). -/
abbrev Flags.exactlyOne (f : Flags) : Prop :=
  f.atMostOne ∧ (f.e = true ∨ f.g = true ∨ f.l = true)

/-- A recorded fault names the pc of the state it left, and is the one that state's cycle raises (R161, R162, R166). -/
def State.recordOk (s : State) : Prop :=
  ∀ record, s.run = .faulted record → record.pc = s.pc ∧ cycleFault s = some record.cause

/-- The invariant: memory in canonical form, pc in 0..256 (R23), flags exclusive (R25), the fault record precise (R161). -/
structure State.Inv (s : State) : Prop where
  memory : s.mem.wf
  pc     : s.pc.toNat ≤ 256
  flags  : s.flags.atMostOne
  record : s.recordOk

/-- A machine runs and the three bytes its fetch latches are these (R81). -/
abbrev Fetches (s : State) (opc a b : Byte) : Prop :=
  s.run = .running ∧ s.pc.toNat ≤ 253 ∧ s.mem.read s.pc.toNat = opc ∧ s.mem.read (s.pc.toNat + 1) = a ∧
    s.mem.read (s.pc.toNat + 2) = b

/-- The states some program reaches from a fresh machine, for any REG_INIT and any image (R88, R182, R190). -/
inductive Reachable : State → Prop where
  | load (regInit : RegFile) (image : List Byte) (s : State) : buildMachine regInit image = .next s → Reachable s
  | cycle (s t : State) : Reachable s → step s = .next t → Reachable t

/-- Instructions executed one after another, as long as each gives a next state. -/
def execAll : List Instr → State → Host.Outcome State Fault Refusal
  | [], s => .next s
  | i :: rest, s =>
    match exec i s with
    | .next t => execAll rest t
    | .fault r => .fault r
    | .refused r => .refused r

end Sys2Proof.Machine
end

