-- ==== Sys2Proof/Certificates/Slice0/Obligations.lean ====
section
/-! DEFINITION. The statements for the provers, from the numbered rules of spec/. -/

open Sys2Proof Sys2Proof.Machine

/-! ## Reset and load -/

/-- R190 for every REG_INIT (D4): the constructed machine. The pc value is the spec's decision D3 (log 12) and the empty
output D25 (log 23). The last clause is the model's choice (log 1): which REG_INIT `State.reset` takes. -/
def Obligations.ResetLeavesTheStatedValues : Prop :=
  (∀ regInit : RegFile,
    (State.construct regInit).pc = 0 ∧ (State.construct regInit).sp = 255 ∧
    (State.construct regInit).flags = { e := false, g := false, l := false } ∧
    (State.construct regInit).run = .running ∧ (State.construct regInit).out = [] ∧
    (State.construct regInit).regs = regInit ∧
    ∀ a, Memory.read (State.construct regInit).mem a = 0) ∧
  State.reset = State.construct Config.regInit

/-- The invariant holds after reset, whatever REG_INIT is. -/
def Obligations.ResetMeetsInvariant : Prop :=
  State.reset.Inv ∧ ∀ regInit : RegFile, (State.construct regInit).Inv

/-- R181 and R190: an image of at most 256 bytes stands at address 0 with zeros above it, and nothing else differs from
the constructed machine; a longer one is rejected at load (D13, log 21). -/
def Obligations.LoadPlacesImageAtZero : Prop :=
  ∀ (regInit : RegFile) (image : List Byte),
    (image.length ≤ 256 → ∃ s, buildMachine regInit image = .next s ∧
      (∀ (i : Nat) (h : i < image.length), Memory.read s.mem i = image[i]) ∧
      (∀ i, image.length ≤ i → Memory.read s.mem i = 0) ∧
      s = { State.construct regInit with mem := s.mem }) ∧
    (256 < image.length → buildMachine regInit image = .refused (.imageTooLong image.length))

/-! ## Memory -/

/-- R40: a memory is its 256 bytes. Two memories in canonical form that read the same everywhere are equal. -/
def Obligations.CanonicalMemoryIsDeterminedByItsBytes : Prop :=
  ∀ m n : Memory, m.wf → n.wf → (∀ a, a < 256 → Memory.read m a = Memory.read n a) → m = n

/-! ## Encoding, fetch and decode -/

/-- R65: the 13 rows, each an exact match on the opcode byte, with its format and operands; no other byte matches. -/
def Obligations.OpcodeMapOfThirteenRows : Prop :=
  (∀ a b : Byte,
    decode { opc := 0b00000001, operandA := a, operandB := b } = .ok .hlt ∧
    decode { opc := 0b10000010, operandA := a, operandB := b } = .ok (.ldi a b) ∧
    decode { opc := 0b01000111, operandA := a, operandB := b } = .ok (.prn a) ∧
    decode { opc := 0b10100010, operandA := a, operandB := b } = .ok (.mul a b) ∧
    decode { opc := 0b10100000, operandA := a, operandB := b } = .ok (.add a b) ∧
    decode { opc := 0b10100111, operandA := a, operandB := b } = .ok (.cmp a b) ∧
    decode { opc := 0b01000101, operandA := a, operandB := b } = .ok (.psh a) ∧
    decode { opc := 0b01000110, operandA := a, operandB := b } = .ok (.pop a) ∧
    decode { opc := 0b01010000, operandA := a, operandB := b } = .ok (.cal a) ∧
    decode { opc := 0b00010001, operandA := a, operandB := b } = .ok .ret ∧
    decode { opc := 0b01010100, operandA := a, operandB := b } = .ok (.jmp a) ∧
    decode { opc := 0b01010101, operandA := a, operandB := b } = .ok (.jeq a) ∧
    decode { opc := 0b01010110, operandA := a, operandB := b } = .ok (.jne a)) ∧
  (Mnemonic.all.map fun m => (m.opcode.toNat, m.format)) =
    [(1, .z), (130, .ri), (71, .r), (162, .rr), (160, .rr), (167, .rr), (69, .r), (70, .r), (80, .r), (17, .z),
     (84, .r), (85, .r), (86, .r)] ∧
  ∀ l : FetchLatch, (∃ i, decode l = .ok i) ↔
    l.opc.toNat ∈ [1, 130, 71, 162, 160, 167, 69, 70, 80, 17, 84, 85, 86]

/-- R67: 243 opcode bytes are illegal; fetching one raises UnrecognizedOpcode with the address and the opcode, and it is
fatal: no further cycle runs. -/
def Obligations.IllegalOpcodeIsFatal : Prop :=
  ((List.range 256).filter fun n =>
    decide (n ∉ [1, 130, 71, 162, 160, 167, 69, 70, 80, 17, 84, 85, 86])).length = 243 ∧
  ∀ (s : State) (opc a b : Byte), Fetches s opc a b →
    opc.toNat ∉ [1, 130, 71, 162, 160, 167, 69, 70, 80, 17, 84, 85, 86] →
    ∃ t, step s = .next t ∧ t.run = .faulted { pc := s.pc, cause := .unrecognizedOpcode opc } ∧
      ∀ u, step t ≠ .next u

/-- Decoding and encoding agree on every instruction, with every operand byte and whatever bytes follow: a latch decodes
to i exactly if its bytes begin with the encoding of i. -/
def Obligations.DecodeAgreesWithEncode : Prop :=
  ∀ (l : FetchLatch) (i : Instr), decode l = .ok i ↔ encode i <+: l.bytes

/-- R68: the bytes after an instruction's own, which the fetch reads too, may hold any value; they must lie in memory. -/
def Obligations.UnusedOperandBytesAreNotConsulted : Prop :=
  (∀ (s : State) (i : Instr) (a : Nat) (v : Byte), fetchDecode s = .ok i → s.pc.toNat + (encode i).length ≤ a →
    fetchDecode { s with mem := Memory.write s.mem a v } = .ok i) ∧
  (∀ i : Instr, (i.mnemonic.format = .z → (encode i).length = 1) ∧ (i.mnemonic.format = .r → (encode i).length = 2)) ∧
  (∀ s : State, s.run = .running → 255 < s.pc.toNat + 2 → ∃ addr, Raises (step s) (.outOfBounds addr))

/-- R81: a fetch needs pc, pc+1 and pc+2 in memory. Which address is reported is the spec's decision D21 (log 20), and
that nothing else changes is D8 (log 15). -/
def Obligations.FetchPastTheTopRaisesOutOfBounds : Prop :=
  ∀ s : State, s.run = .running →
    (253 < s.pc.toNat → ∃ addr,
      step s = .next { s with run := .faulted { pc := s.pc, cause := .outOfBounds addr } } ∧
      s.pc.toNat ≤ addr ∧ 255 < addr ∧ ∀ a, s.pc.toNat ≤ a → a < addr → a ≤ 255) ∧
    (s.pc.toNat ≤ 253 → ∀ addr, ¬ Raises (step s) (.outOfBounds addr))

/-- R80 to R82: where the three bytes at pc decode to an instruction, the cycle is that instruction's execution. -/
def Obligations.StepRunsTheDecodedInstruction : Prop :=
  ∀ (s : State) (opc a b : Byte) (i : Instr), Fetches s opc a b →
    decode { opc := opc, operandA := a, operandB := b } = .ok i → step s = exec i s

/-- The instruction of a table word stored with `withFetchWord` is the one the next step runs (40_control_unit.md on the
fetch). `withFetchWord` and `decodeTableWord`, which stand for the load of a program, are the model's choice (log 3). -/
def Obligations.StoredTableWordIsRunNext : Prop :=
  ∀ (s : State) (nbits w : Nat) (i : Instr), s.run = .running → s.pc.toNat ≤ 253 → decodeTableWord nbits w = some i →
    step (s.withFetchWord nbits w) = exec i (s.withFetchWord nbits w)

/-! ## The instructions, rule by rule: encoding, effect and frame, faults -/

/-- R100. -/
def Obligations.LdiLoadsItsImmediate : Prop :=
  ∀ (s : State) (ra imm : Byte),
    decode { opc := 0b10000010, operandA := ra, operandB := imm } = .ok (.ldi ra imm) ∧
    (∀ r : RegIndex, ra.toNat = r.val →
      exec (.ldi ra imm) s = .next { s with regs := s.regs.set r imm, pc := s.pc + 3 }) ∧
    (7 < ra.toNat → Raises (exec (.ldi ra imm) s) (.invalidRegister ra)) ∧
    (s.run = .running → 253 < s.pc.toNat → ∃ addr, Raises (step s) (.outOfBounds addr))

/-- R101. A faulting PRN emits nothing, and a later fault takes back no byte emitted. -/
def Obligations.PrnEmitsItsRegister : Prop :=
  ∀ (s : State) (ra b : Byte),
    decode { opc := 0b01000111, operandA := ra, operandB := b } = .ok (.prn ra) ∧
    (∀ r : RegIndex, ra.toNat = r.val →
      exec (.prn ra) s = .next { s with out := s.out ++ [s.regs[r]], pc := s.pc + 2 }) ∧
    (7 < ra.toNat → Raises (exec (.prn ra) s) (.invalidRegister ra) ∧
      ∀ t, exec (.prn ra) s = .next t → t.out = s.out) ∧
    (s.run = .running → 253 < s.pc.toNat → (∃ addr, Raises (step s) (.outOfBounds addr)) ∧
      ∀ t, step s = .next t → t.out = s.out) ∧
    (∀ t record, step s = .next t → t.run = .faulted record → t.out = s.out)

/-- R111. -/
def Obligations.AddWrapsModulo256 : Prop :=
  ∀ (s : State) (ra rb : Byte),
    decode { opc := 0b10100000, operandA := ra, operandB := rb } = .ok (.add ra rb) ∧
    (∀ r q : RegIndex, ra.toNat = r.val → rb.toNat = q.val → ∃ v : Byte,
      v.toNat = ((s.regs[r]).toNat + (s.regs[q]).toNat) % 256 ∧
      exec (.add ra rb) s = .next { s with regs := s.regs.set r v, pc := s.pc + 3 }) ∧
    (7 < ra.toNat → Raises (exec (.add ra rb) s) (.invalidRegister ra)) ∧
    (ra.toNat ≤ 7 → 7 < rb.toNat → Raises (exec (.add ra rb) s) (.invalidRegister rb)) ∧
    (s.run = .running → 253 < s.pc.toNat → ∃ addr, Raises (step s) (.outOfBounds addr))

/-- R112. -/
def Obligations.MulWrapsModulo256 : Prop :=
  ∀ (s : State) (ra rb : Byte),
    decode { opc := 0b10100010, operandA := ra, operandB := rb } = .ok (.mul ra rb) ∧
    (∀ r q : RegIndex, ra.toNat = r.val → rb.toNat = q.val → ∃ v : Byte,
      v.toNat = ((s.regs[r]).toNat * (s.regs[q]).toNat) % 256 ∧
      exec (.mul ra rb) s = .next { s with regs := s.regs.set r v, pc := s.pc + 3 }) ∧
    (7 < ra.toNat → Raises (exec (.mul ra rb) s) (.invalidRegister ra)) ∧
    (ra.toNat ≤ 7 → 7 < rb.toNat → Raises (exec (.mul ra rb) s) (.invalidRegister rb)) ∧
    (s.run = .running → 253 < s.pc.toNat → ∃ addr, Raises (step s) (.outOfBounds addr))

/-- R113, with the comparison unsigned by the spec's decision D2 (log 11). -/
def Obligations.CmpSetsExactlyOneFlag : Prop :=
  ∀ (s : State) (ra rb : Byte),
    decode { opc := 0b10100111, operandA := ra, operandB := rb } = .ok (.cmp ra rb) ∧
    (∀ r q : RegIndex, ra.toNat = r.val → rb.toNat = q.val → ∃ f : Flags,
      exec (.cmp ra rb) s = .next { s with flags := f, pc := s.pc + 3 } ∧ f.exactlyOne ∧
      (f.e = true ↔ s.regs[r] = s.regs[q]) ∧
      (f.g = true ↔ (s.regs[q]).toNat < (s.regs[r]).toNat) ∧
      (f.l = true ↔ (s.regs[r]).toNat < (s.regs[q]).toNat)) ∧
    (7 < ra.toNat → Raises (exec (.cmp ra rb) s) (.invalidRegister ra)) ∧
    (ra.toNat ≤ 7 → 7 < rb.toNat → Raises (exec (.cmp ra rb) s) (.invalidRegister rb))

/-- R133 with R131: the decrement before the write is the spec's decision D12, the fault's name D11 (log 17). -/
def Obligations.PshStoresBelowTheStackPointer : Prop :=
  ∀ (s : State) (ra b : Byte),
    decode { opc := 0b01000101, operandA := ra, operandB := b } = .ok (.psh ra) ∧
    (∀ r : RegIndex, ra.toNat = r.val → s.sp ≠ 0 → ∃ t, exec (.psh ra) s = .next t ∧
      t.sp.toNat = s.sp.toNat - 1 ∧ pushAddress s = s.sp.toNat - 1 ∧
      Memory.read t.mem (pushAddress s) = s.regs[r] ∧
      (∀ a, a ≠ pushAddress s → Memory.read t.mem a = Memory.read s.mem a) ∧
      t = { s with sp := t.sp, mem := t.mem, pc := s.pc + 2 }) ∧
    (7 < ra.toNat → Raises (exec (.psh ra) s) (.invalidRegister ra)) ∧
    (ra.toNat ≤ 7 → s.sp = 0 → Raises (exec (.psh ra) s) (.stackOverflow 0))

/-- R134 with R132: the read before the increment is the spec's decision D12, the fault's name D11 (log 17). The popped
byte stays in memory. -/
def Obligations.PopLoadsTheTopOfStack : Prop :=
  ∀ (s : State) (ra b : Byte),
    decode { opc := 0b01000110, operandA := ra, operandB := b } = .ok (.pop ra) ∧
    (∀ r : RegIndex, ra.toNat = r.val → s.sp ≠ 255 →
      exec (.pop ra) s = .next { s with
        regs := s.regs.set r (Memory.read s.mem s.sp.toNat), sp := s.sp + 1, pc := s.pc + 2 } ∧
      (s.sp + 1).toNat = s.sp.toNat + 1) ∧
    (7 < ra.toNat → Raises (exec (.pop ra) s) (.invalidRegister ra)) ∧
    (ra.toNat ≤ 7 → s.sp = 255 → Raises (exec (.pop ra) s) (.stackUnderflow 255))

/-- R141 with R131, from a pc that a fetch accepts; the order of the push is D12, the fault's name D11 (log 17). -/
def Obligations.CalPushesTheReturnAddress : Prop :=
  ∀ (s : State) (ra b : Byte),
    decode { opc := 0b01010000, operandA := ra, operandB := b } = .ok (.cal ra) ∧
    (∀ r : RegIndex, ra.toNat = r.val → s.sp ≠ 0 → ∃ t, exec (.cal ra) s = .next t ∧
      t.pc.toNat = (s.regs[r]).toNat ∧ t.sp.toNat = s.sp.toNat - 1 ∧ pushAddress s = s.sp.toNat - 1 ∧
      (s.pc.toNat ≤ 253 → (Memory.read t.mem (pushAddress s)).toNat = s.pc.toNat + 2) ∧
      (∀ a, a ≠ pushAddress s → Memory.read t.mem a = Memory.read s.mem a) ∧
      t = { s with sp := t.sp, mem := t.mem, pc := t.pc }) ∧
    (7 < ra.toNat → Raises (exec (.cal ra) s) (.invalidRegister ra)) ∧
    (ra.toNat ≤ 7 → s.sp = 0 → Raises (exec (.cal ra) s) (.stackOverflow 0))

/-- R142 with R132: the read before the increment is the spec's decision D12, the fault's name D11 (log 17). -/
def Obligations.RetPopsThePc : Prop :=
  ∀ (s : State) (a b : Byte),
    decode { opc := 0b00010001, operandA := a, operandB := b } = .ok .ret ∧
    (s.sp ≠ 255 → ∃ t, exec .ret s = .next t ∧ t.pc.toNat = (Memory.read s.mem s.sp.toNat).toNat ∧
      t.sp.toNat = s.sp.toNat + 1 ∧ t = { s with sp := t.sp, pc := t.pc }) ∧
    (s.sp = 255 → Raises (exec .ret s) (.stackUnderflow 255))

/-- 44_control_transfer.md on JMP, pc <- zext_9(x[ra]): the encoding, the jump, its faults, and that one jump to its own
address leaves the state as it is. That it then loops forever is `Obligations.SelfJumpRunsForever`. -/
def Obligations.JmpSetsThePc : Prop :=
  ∀ (s : State) (ra b : Byte),
    decode { opc := 0b01010100, operandA := ra, operandB := b } = .ok (.jmp ra) ∧
    (∀ r : RegIndex, ra.toNat = r.val → ∃ t, exec (.jmp ra) s = .next t ∧
      t.pc.toNat = (s.regs[r]).toNat ∧ t = { s with pc := t.pc } ∧
      (s.pc.toNat = (s.regs[r]).toNat → t = s)) ∧
    (7 < ra.toNat → Raises (exec (.jmp ra) s) (.invalidRegister ra)) ∧
    (s.run = .running → 253 < s.pc.toNat → ∃ addr, Raises (step s) (.outOfBounds addr))

/-- R145. That the operand is validated where the jump is not taken is the spec's decision D10 (log 16). -/
def Obligations.JeqJumpsWhereEqual : Prop :=
  ∀ (s : State) (ra b : Byte),
    decode { opc := 0b01010101, operandA := ra, operandB := b } = .ok (.jeq ra) ∧
    (∀ r : RegIndex, ra.toNat = r.val → ∃ t, exec (.jeq ra) s = .next t ∧ t = { s with pc := t.pc } ∧
      (s.flags.e = true → t.pc.toNat = (s.regs[r]).toNat) ∧ (s.flags.e = false → t.pc = s.pc + 2)) ∧
    (7 < ra.toNat → Raises (exec (.jeq ra) s) (.invalidRegister ra))

/-- R146. That the operand is validated where the jump is not taken is the spec's decision D10 (log 16). -/
def Obligations.JneJumpsWhereNotEqual : Prop :=
  ∀ (s : State) (ra b : Byte),
    decode { opc := 0b01010110, operandA := ra, operandB := b } = .ok (.jne ra) ∧
    (∀ r : RegIndex, ra.toNat = r.val → ∃ t, exec (.jne ra) s = .next t ∧ t = { s with pc := t.pc } ∧
      (s.flags.e = false → t.pc.toNat = (s.regs[r]).toNat) ∧ (s.flags.e = true → t.pc = s.pc + 2)) ∧
    (7 < ra.toNat → Raises (exec (.jne ra) s) (.invalidRegister ra))

/-- R87. That the pc keeps the address of HLT is the spec's decision D5 (log 13). No further cycle runs. -/
def Obligations.HltHaltsAndNothingFollows : Prop :=
  ∀ (s : State) (a b : Byte),
    decode { opc := 0b00000001, operandA := a, operandB := b } = .ok .hlt ∧
    exec .hlt s = .next { s with run := .halted } ∧
    ∀ t, exec .hlt s = .next t → step t = .fault .halted

/-! ## Frames -/

/-- LDI, ADD and MUL write no register but ra. -/
def Obligations.RegisterWriteFrame : Prop :=
  ∀ (s t : State) (ra b : Byte),
    (exec (.ldi ra b) s = .next t ∨ exec (.add ra b) s = .next t ∨ exec (.mul ra b) s = .next t) →
    (∀ q : RegIndex, q.val ≠ ra.toNat → t.regs[q] = s.regs[q]) ∧ t.flags = s.flags ∧ t.sp = s.sp ∧ t.out = s.out ∧
    (∀ a, Memory.read t.mem a = Memory.read s.mem a) ∧
    (t.run = s.run ∨ ∃ c, t.run = .faulted { pc := s.pc, cause := c })

/-- CMP writes the three flags and nothing else but pc. -/
def Obligations.CompareFrame : Prop :=
  ∀ (s t : State) (ra rb : Byte), exec (.cmp ra rb) s = .next t →
    t.regs = s.regs ∧ t.sp = s.sp ∧ t.out = s.out ∧ (∀ a, Memory.read t.mem a = Memory.read s.mem a) ∧
    (t.run = s.run ∨ ∃ c, t.run = .faulted { pc := s.pc, cause := c })

/-- PRN writes out and nothing else but pc. -/
def Obligations.PrintFrame : Prop :=
  ∀ (s t : State) (ra : Byte), exec (.prn ra) s = .next t →
    t.regs = s.regs ∧ t.flags = s.flags ∧ t.sp = s.sp ∧ (∀ a, Memory.read t.mem a = Memory.read s.mem a) ∧
    (t.run = s.run ∨ ∃ c, t.run = .faulted { pc := s.pc, cause := c })

/-- PSH and CAL write sp and the one byte at the decremented sp, which is the address their meaning stores to (decision D12,
log 17). -/
def Obligations.PushFrame : Prop :=
  ∀ (s t : State) (ra : Byte), (exec (.psh ra) s = .next t ∨ exec (.cal ra) s = .next t) →
    t.regs = s.regs ∧ t.flags = s.flags ∧ t.out = s.out ∧
    (∀ a, a ≠ pushAddress s → Memory.read t.mem a = Memory.read s.mem a) ∧
    (t.run = s.run ∨ ∃ c, t.run = .faulted { pc := s.pc, cause := c })

/-- POP writes ra and sp, RET writes sp; neither stores to memory, nor clears the byte it popped (decision D12, log 17). -/
def Obligations.PopFrame : Prop :=
  ∀ (s t : State) (ra : Byte),
    (exec (.pop ra) s = .next t → ∀ q : RegIndex, q.val ≠ ra.toNat → t.regs[q] = s.regs[q]) ∧
    (exec .ret s = .next t → t.regs = s.regs) ∧
    (exec (.pop ra) s = .next t ∨ exec .ret s = .next t →
      t.flags = s.flags ∧ t.out = s.out ∧ (∀ a, Memory.read t.mem a = Memory.read s.mem a) ∧
      (t.run = s.run ∨ ∃ c, t.run = .faulted { pc := s.pc, cause := c }))

/-- JMP, JEQ and JNE write only pc, and HLT only the run state (its pc by the spec's decision D5, log 13). -/
def Obligations.JumpAndHaltFrame : Prop :=
  ∀ (s t : State) (ra : Byte),
    (exec (.jmp ra) s = .next t ∨ exec (.jeq ra) s = .next t ∨ exec (.jne ra) s = .next t ∨ exec .hlt s = .next t →
      t.regs = s.regs ∧ t.flags = s.flags ∧ t.sp = s.sp ∧ t.out = s.out ∧
      ∀ a, Memory.read t.mem a = Memory.read s.mem a) ∧
    (exec (.jmp ra) s = .next t ∨ exec (.jeq ra) s = .next t ∨ exec (.jne ra) s = .next t →
      t.run = s.run ∨ ∃ c, t.run = .faulted { pc := s.pc, cause := c }) ∧
    (exec .hlt s = .next t → t.run = .halted ∧ t.pc = s.pc)

/-! ## The whole machine -/

/-- Every step keeps the invariant: canonical memory, pc in 0..256 (D6, log 14), exclusive flags, a precise fault record
(D8, log 15). -/
def Obligations.StepKeepsTheInvariant : Prop :=
  ∀ s t : State, s.Inv → step s = .next t → t.Inv

/-- Whatever image is loaded and whatever REG_INIT is, every state of the run meets the invariant, and memory byte 255
holds what the load put there: the stack never writes it (R131, D12). -/
def Obligations.EveryRunMeetsTheInvariant : Prop :=
  (∀ s, Reachable s → s.Inv) ∧
  ∀ (regInit : RegFile) (image : List Byte) (s : State) (n : Nat), buildMachine regInit image = .next s →
    Memory.read (runToEnd n s).mem 255 = Memory.read s.mem 255

/-- A running machine always answers a next state, and a machine that has left Running never does. -/
def Obligations.StepAnswersExactlyWhereRunning : Prop :=
  ∀ s : State, (∃ t, step s = .next t) ↔ s.run = .running

/-- The fault a cycle raises is the first failing check in the order of R80 and R164 (decisions D9 and D10, log 16), and
where no check fails the cycle completes without one (R85). -/
def Obligations.FaultIsTheFirstFailingCheck : Prop :=
  ∀ s : State, s.run = .running →
    (∀ c, cycleFault s = some c → step s = raise c s) ∧
    (cycleFault s = none → ∃ t, step s = .next t ∧ t.safe)

/-- R161: faults are precise by the spec's decision D8 (log 15): the cycle leaves everything but the run state as it was,
and the record names the pc (D28, log 20). -/
def Obligations.FaultsArePrecise : Prop :=
  ∀ (s t : State) (record : FaultRecord), step s = .next t → t.run = .faulted record →
    t = { s with run := .faulted record } ∧ record.pc = s.pc

/-- R27: the reset value, who sets Halted and Faulted, and that both are terminal. -/
def Obligations.RunStateIsSetOnlyByHltAndFaults : Prop :=
  (∀ regInit : RegFile, (State.construct regInit).run = .running) ∧
  (∀ s t : State, step s = .next t → t.run = .halted → fetchDecode s = .ok .hlt) ∧
  (∀ (s t : State) (record : FaultRecord), step s = .next t → t.run = .faulted record → cycleFault s ≠ none) ∧
  (∀ s t : State, s.run ≠ .running → step s ≠ .next t)

/-- R114: the ALU turns away every operation but ADD, MUL and CMP, and no cycle ever gives it one (D23; the operation as
an opcode byte is log 5). -/
def Obligations.UnsupportedAluOperationIsNeverRaised : Prop :=
  (∀ op a b : Byte, op.toNat ∉ [160, 162, 167] → aluApply op a b = .error (.unsupportedALUOperation op)) ∧
  (∀ (s t : State) (record : FaultRecord) (op : Byte), step s = .next t → t.run = .faulted record →
    record.cause ≠ .unsupportedALUOperation op)

/-- 10_state.md on register operands: an operand byte is used whole; 0..7 select R0..R7 and 8..255 raise InvalidRegister.
That this comes before the stack bound is the spec's decision D9, and that it comes where a JEQ or JNE is not taken its
decision D10 (log 16). -/
def Obligations.OperandBytesAboveSevenRaiseInvalidRegister : Prop :=
  (∀ (i : Instr) (s : State), (∃ b ∈ i.registerOperands, 7 < b.toNat) →
    ∃ b ∈ i.registerOperands, 7 < b.toNat ∧ Raises (exec i s) (.invalidRegister b)) ∧
  (∀ (i : Instr) (s : State), s.run = .running → (∀ b ∈ i.registerOperands, b.toNat ≤ 7) →
    ∀ b, ¬ Raises (exec i s) (.invalidRegister b)) ∧
  (∀ (s : State) (ra imm : Byte) (r : RegIndex), ra.toNat = r.val →
    (∃ t, exec (.ldi ra imm) s = .next t ∧ t.regs[r] = imm) ∧
    (∃ t, exec (.prn ra) s = .next t ∧ t.out = s.out ++ [s.regs[r]]))

/-- 10_state.md on the flags: a cycle that changes them runs a CMP. -/
def Obligations.OnlyCmpWritesTheFlags : Prop :=
  ∀ s t : State, step s = .next t → t.flags ≠ s.flags →
    s.pc.toNat ≤ 253 ∧ Memory.read s.mem s.pc.toNat = 0b10100111

/-- G and L are never consulted: two machines that differ in nothing else differ in nothing else after any number of
cycles. -/
def Obligations.GreaterAndLessAreNeverConsulted : Prop :=
  ∀ (n : Nat) (s t : State), t = { s with flags := t.flags } → t.flags.e = s.flags.e →
    runToEnd n t = { runToEnd n s with flags := (runToEnd n t).flags } ∧
    (runToEnd n t).flags.e = (runToEnd n s).flags.e

/-- R28: out is empty at reset, PRN appends one byte, nothing else writes it, and the core never reads it: what was
emitted before changes nothing a cycle does. -/
def Obligations.OutputIsAppendOnlyAndNeverRead : Prop :=
  (∀ regInit : RegFile, (State.construct regInit).out = []) ∧
  (∀ (s : State) (ra : Byte) (r : RegIndex), ra.toNat = r.val →
    ∃ t, exec (.prn ra) s = .next t ∧ t.out = s.out ++ [s.regs[r]]) ∧
  (∀ s t : State, step s = .next t → t.out ≠ s.out →
    s.pc.toNat ≤ 253 ∧ Memory.read s.mem s.pc.toNat = 0b01000111 ∧ ∃ v, t.out = s.out ++ [v]) ∧
  (∀ s : State, s.run = .running → ∃ (t : State) (emitted : List Byte), ∀ o : List Byte,
    step { s with out := o } = .next { t with out := o ++ emitted })

/-- 10_state.md on sp: it is 255 at reset; only PSH and CAL lower it and only POP and RET raise it, by one; every other
instruction completes or faults with sp unchanged and with a result that does not depend on it. What PSH, POP, CAL and RET
do with the address in sp stands in their own statements. -/
def Obligations.StackPointerMovesOnlyByPushAndPop : Prop :=
  (∀ regInit : RegFile, (State.construct regInit).sp.toNat = 255) ∧
  (∀ s t : State, step s = .next t → t.sp ≠ s.sp →
    (Memory.read s.mem s.pc.toNat ∈ [(0b01000101 : Byte), 0b01010000] ∧ t.sp.toNat + 1 = s.sp.toNat) ∨
    (Memory.read s.mem s.pc.toNat ∈ [(0b01000110 : Byte), 0b00010001] ∧ t.sp.toNat = s.sp.toNat + 1)) ∧
  (∀ (i : Instr) (s : State) (v : Byte), pushes i = false → pops i = false →
    ∃ t, exec i s = .next t ∧ t.sp = s.sp ∧ exec i { s with sp := v } = .next { t with sp := v })

/-- 20_memory.md and 43_stack.md: a cycle changes memory only by a push, at the decremented sp and nowhere else (D12). So
byte 255 is never written. -/
def Obligations.MemoryChangesOnlyByPushes : Prop :=
  ∀ (s t : State) (a : Nat), step s = .next t → Memory.read t.mem a ≠ Memory.read s.mem a →
    Memory.read s.mem s.pc.toNat ∈ [(0b01000101 : Byte), 0b01010000] ∧ a + 1 = s.sp.toNat

/-! ## Laws across instructions -/

/-- The stack balance of 43_stack.md: PSH then POP of one register restores every register and sp, and leaves the value
below sp (D12). -/
def Obligations.PushThenPopRestores : Prop :=
  ∀ (s : State) (ra : Byte) (r : RegIndex), ra.toNat = r.val → s.sp ≠ 0 →
    ∃ u, execAll [.psh ra, .pop ra] s = .next u ∧ u.regs = s.regs ∧ u.sp = s.sp ∧
      Memory.read u.mem (s.sp.toNat - 1) = s.regs[r]

/-- 43_stack.md, n pushes followed by n pops: sp returns to its start and the pops return the values in reverse order;
where two pops name one register the later one decides (D12). -/
def Obligations.PopsReturnPushesInReverse : Prop :=
  ∀ (s : State) (pushed popped : List RegIndex), pushed.length ≤ s.sp.toNat → popped.length = pushed.length →
    ∃ u, execAll (pushed.map (fun r => .psh (regByte r)) ++ popped.map (fun r => .pop (regByte r))) s = .next u ∧
      u.sp = s.sp ∧
      ∀ (k : Nat) (hk : k < popped.length) (hr : k < pushed.reverse.length),
        (∀ (j : Nat) (hj : j < popped.length), k < j → popped[j] ≠ popped[k]) →
          u.regs[popped[k]] = s.regs[pushed.reverse[k]]

/-- 44_control_transfer.md: a RET that finds sp and its byte as CAL left them resumes after the CAL and its operand, with
sp as it was before the call (D12). -/
def Obligations.RetResumesAfterTheCal : Prop :=
  ∀ (s : State) (ra : Byte) (r : RegIndex), ra.toNat = r.val → s.sp ≠ 0 → s.pc.toNat ≤ 253 →
    ∃ t, exec (.cal ra) s = .next t ∧
      ∀ u : State, u.sp = t.sp → Memory.read u.mem u.sp.toNat = Memory.read t.mem t.sp.toNat →
        ∃ v, exec .ret u = .next v ∧ v.pc.toNat = s.pc.toNat + 2 ∧ v.sp = s.sp

/-- R194: a CMP directly followed by JEQ or JNE branches on its result, and any instructions other than CMP leave E
intact. -/
def Obligations.BranchFollowsTheLastCompare : Prop :=
  (∀ (s : State) (ra rb rc : Byte) (a b c : RegIndex), ra.toNat = a.val → rb.toNat = b.val → rc.toNat = c.val →
    ∃ t, exec (.cmp ra rb) s = .next t ∧ t.regs = s.regs ∧
      (∃ u, exec (.jeq rc) t = .next u ∧
        (s.regs[a] = s.regs[b] → u.pc.toNat = (s.regs[c]).toNat) ∧ (s.regs[a] ≠ s.regs[b] → u.pc = t.pc + 2)) ∧
      (∃ u, exec (.jne rc) t = .next u ∧
        (s.regs[a] ≠ s.regs[b] → u.pc.toNat = (s.regs[c]).toNat) ∧ (s.regs[a] = s.regs[b] → u.pc = t.pc + 2))) ∧
  (∀ (between : List Instr) (s t : State), (∀ i ∈ between, i.mnemonic ≠ .cmp) → execAll between s = .next t →
    t.flags.e = s.flags.e)

/-- 40_control_unit.md on latched operands (decision D18, log 19): a CAL whose push overwrites its own operand byte still
jumps to the register its fetched operand named, and the new byte stands in memory. That CAL at sp = pc + 2 stores at pc + 1
is 43_stack.md on the push (decision D12, log 17). -/
def Obligations.SelfOverwritingCalUsesItsLatchedOperand : Prop :=
  ∀ (s : State) (ra b : Byte) (r : RegIndex), Fetches s 0b01010000 ra b → ra.toNat = r.val →
    s.sp.toNat = s.pc.toNat + 2 →
    ∃ t, step s = .next t ∧ t.pc.toNat = (s.regs[r]).toNat ∧
      (Memory.read t.mem (s.pc.toNat + 1)).toNat = s.pc.toNat + 2

/-- 20_memory.md on fetch coherence (decision D18, log 19): a byte PSH stores where the next opcode stands is the opcode
the next cycle fetches. That PSH at sp = pc + 3 stores at pc + 2 is 43_stack.md on the push, decrement and then write
(decision D12, log 17). -/
def Obligations.NextFetchSeesAStoredByte : Prop :=
  ∀ (s : State) (ra b : Byte) (r : RegIndex), Fetches s 0b01000101 ra b → ra.toNat = r.val →
    s.pc.toNat + 2 ≤ 253 → s.sp.toNat = s.pc.toNat + 3 →
    ∃ t l, step s = .next t ∧ fetch t = .ok l ∧ l.opc = s.regs[r]

/-- 44_control_transfer.md, the corner case of a CAL to its own address, for a stack that lies below the CAL (log 9): it
calls itself once per cycle, consuming one stack byte each (decision D12), until StackOverflow (D11; both log 17). -/
def Obligations.SelfCallBelowItselfOverflows : Prop :=
  ∀ (s : State) (ra b : Byte) (r : RegIndex), Fetches s 0b01010000 ra b → ra.toNat = r.val →
    (s.regs[r]).toNat = s.pc.toNat → s.sp.toNat ≤ s.pc.toNat →
    (∀ n, n ≤ s.sp.toNat → (runToEnd n s).run = .running ∧ (runToEnd n s).sp.toNat + n = s.sp.toNat ∧
      (runToEnd n s).pc = s.pc) ∧
    ∃ record, (runToEnd (s.sp.toNat + 1) s).run = .faulted record ∧ record.cause = .stackOverflow 0

/-- 40_control_unit.md: a JMP to its own address loops forever with no fault. -/
def Obligations.SelfJumpRunsForever : Prop :=
  ∀ (s : State) (ra b : Byte) (r : RegIndex), Fetches s 0b01010100 ra b → ra.toNat = r.val →
    (s.regs[r]).toNat = s.pc.toNat → ∀ n, SafeRun n s ∧ runToEnd n s = s

/-! ## Host interface -/

/-- 60_exceptions.md on the end status: 0 after HLT, 1 after a fault (for the kinds other than UnrecognizedOpcode the
spec's decision D14, log 18), with the output; none while the machine runs. -/
def Obligations.EndStatusReportsRunAndOutput : Prop :=
  ∀ s : State,
    (s.run = .running → endStatus s = none) ∧
    (s.run = .halted → endStatus s = some { run := .halted, exit := 0, out := s.out }) ∧
    (∀ record, s.run = .faulted record → endStatus s = some { run := .faulted record, exit := 1, out := s.out })

/-- 40_control_unit.md on the loop: it goes on only while run = Running, so once run has left Running no further cycle
changes the state. That the loop takes a number of cycles as fuel is the model's choice (log 8), and so is the form of this
statement: more fuel changes nothing then. -/
def Obligations.RunEndsWhereRunLeavesRunning : Prop :=
  ∀ (s : State) (n k : Nat), (runToEnd n s).run ≠ .running → runToEnd (n + k) s = runToEnd n s

/-- 60_exceptions.md on the trace hook (decision D26): it sees pc, the registers and the bytes the fetch will latch, and a
byte beyond 255 as absent. 10_state.md on the flags: it observes G and L. That one record holds both is the model's reading
(log 7). -/
def Obligations.TraceHookSeesTheFetchedBytes : Prop :=
  ∀ s : State,
    (traceView s).pc = s.pc ∧ (traceView s).regs = s.regs ∧ (traceView s).g = s.flags.g ∧ (traceView s).l = s.flags.l ∧
    (∀ l, fetch s = .ok l →
      (traceView s).byte0 = some l.opc ∧ (traceView s).byte1 = some l.operandA ∧ (traceView s).byte2 = some l.operandB) ∧
    (255 < s.pc.toNat + 2 → (traceView s).byte2 = none) ∧
    (255 < s.pc.toNat + 1 → (traceView s).byte1 = none) ∧
    (255 < s.pc.toNat → (traceView s).byte0 = none)

/-- 30_encoding.md, the observation about the table: bits 7:6 count the operand bytes, bit 5 marks the ALU operations,
bit 4 the control transfers. -/
def Obligations.OpcodeBitsShowTheRegularity : Prop :=
  ∀ m : Mnemonic,
    m.opcode.toNat / 64 + 1 = m.format.length ∧
    (m.opcode.getLsbD 5 = true ↔ m ∈ [.add, .mul, .cmp]) ∧
    (m.opcode.getLsbD 4 = true ↔ m ∈ [.cal, .ret, .jmp, .jeq, .jne])

/-- 30_encoding.md on assembly (decision D19, log 24): a label in the source names the address of the next byte, in the
bytes assembled before it. -/
def Obligations.AssembledLinesHaveTheirLength : Prop :=
  ∀ (labels : List (String × Nat)) (before after : List AsmLine) (bytes : List Byte) (name : String),
    bytesOf labels before = some bytes →
    labelsFrom (before ++ .label name :: after) 0 =
      labelsFrom before 0 ++ (name, bytes.length) :: labelsFrom after bytes.length
end

