-- ==== Sys2Proof/Laws/State.lean ====
section
/-! SUPPORT. One lemma per field per update of the state, so that no later proof unfolds a record update. -/

namespace Sys2Proof.Machine

@[simp] theorem writeReg_regs (r : RegIndex) (v : Byte) (s : State) : (writeReg r v s).regs = s.regs.set r v := rfl
@[simp] theorem writeReg_pc (r : RegIndex) (v : Byte) (s : State) : (writeReg r v s).pc = s.pc := rfl
@[simp] theorem writeReg_sp (r : RegIndex) (v : Byte) (s : State) : (writeReg r v s).sp = s.sp := rfl
@[simp] theorem writeReg_flags (r : RegIndex) (v : Byte) (s : State) : (writeReg r v s).flags = s.flags := rfl
@[simp] theorem writeReg_mem (r : RegIndex) (v : Byte) (s : State) : (writeReg r v s).mem = s.mem := rfl
@[simp] theorem writeReg_run (r : RegIndex) (v : Byte) (s : State) : (writeReg r v s).run = s.run := rfl
@[simp] theorem writeReg_out (r : RegIndex) (v : Byte) (s : State) : (writeReg r v s).out = s.out := rfl

@[simp] theorem advance_regs (n : Nat) (s : State) : (advance n s).regs = s.regs := rfl
@[simp] theorem advance_pc (n : Nat) (s : State) : (advance n s).pc = s.pc + BitVec.ofNat 9 n := rfl
@[simp] theorem advance_sp (n : Nat) (s : State) : (advance n s).sp = s.sp := rfl
@[simp] theorem advance_flags (n : Nat) (s : State) : (advance n s).flags = s.flags := rfl
@[simp] theorem advance_mem (n : Nat) (s : State) : (advance n s).mem = s.mem := rfl
@[simp] theorem advance_run (n : Nat) (s : State) : (advance n s).run = s.run := rfl
@[simp] theorem advance_out (n : Nat) (s : State) : (advance n s).out = s.out := rfl

@[simp] theorem jump_regs (v : Byte) (s : State) : (jump v s).regs = s.regs := rfl
@[simp] theorem jump_pc (v : Byte) (s : State) : (jump v s).pc = zext9 v := rfl
@[simp] theorem jump_sp (v : Byte) (s : State) : (jump v s).sp = s.sp := rfl
@[simp] theorem jump_flags (v : Byte) (s : State) : (jump v s).flags = s.flags := rfl
@[simp] theorem jump_mem (v : Byte) (s : State) : (jump v s).mem = s.mem := rfl
@[simp] theorem jump_run (v : Byte) (s : State) : (jump v s).run = s.run := rfl
@[simp] theorem jump_out (v : Byte) (s : State) : (jump v s).out = s.out := rfl

@[simp] theorem setFlags_regs (f : Flags) (s : State) : (setFlags f s).regs = s.regs := rfl
@[simp] theorem setFlags_pc (f : Flags) (s : State) : (setFlags f s).pc = s.pc := rfl
@[simp] theorem setFlags_sp (f : Flags) (s : State) : (setFlags f s).sp = s.sp := rfl
@[simp] theorem setFlags_flags (f : Flags) (s : State) : (setFlags f s).flags = f := rfl
@[simp] theorem setFlags_mem (f : Flags) (s : State) : (setFlags f s).mem = s.mem := rfl
@[simp] theorem setFlags_run (f : Flags) (s : State) : (setFlags f s).run = s.run := rfl
@[simp] theorem setFlags_out (f : Flags) (s : State) : (setFlags f s).out = s.out := rfl

@[simp] theorem output_regs (v : Byte) (s : State) : (output v s).regs = s.regs := rfl
@[simp] theorem output_pc (v : Byte) (s : State) : (output v s).pc = s.pc := rfl
@[simp] theorem output_sp (v : Byte) (s : State) : (output v s).sp = s.sp := rfl
@[simp] theorem output_flags (v : Byte) (s : State) : (output v s).flags = s.flags := rfl
@[simp] theorem output_mem (v : Byte) (s : State) : (output v s).mem = s.mem := rfl
@[simp] theorem output_run (v : Byte) (s : State) : (output v s).run = s.run := rfl
@[simp] theorem output_out (v : Byte) (s : State) : (output v s).out = s.out ++ [v] := rfl

@[simp] theorem halt_regs (s : State) : (halt s).regs = s.regs := rfl
@[simp] theorem halt_pc (s : State) : (halt s).pc = s.pc := rfl
@[simp] theorem halt_sp (s : State) : (halt s).sp = s.sp := rfl
@[simp] theorem halt_flags (s : State) : (halt s).flags = s.flags := rfl
@[simp] theorem halt_mem (s : State) : (halt s).mem = s.mem := rfl
@[simp] theorem halt_run (s : State) : (halt s).run = .halted := rfl
@[simp] theorem halt_out (s : State) : (halt s).out = s.out := rfl

@[simp] theorem push_regs (v : Byte) (s : State) : (push v s).regs = s.regs := rfl
@[simp] theorem push_pc (v : Byte) (s : State) : (push v s).pc = s.pc := rfl
@[simp] theorem push_sp (v : Byte) (s : State) : (push v s).sp = s.sp - 1 := rfl
@[simp] theorem push_flags (v : Byte) (s : State) : (push v s).flags = s.flags := rfl
@[simp] theorem push_mem (v : Byte) (s : State) : (push v s).mem = Memory.write s.mem (pushAddress s) v := rfl
@[simp] theorem push_run (v : Byte) (s : State) : (push v s).run = s.run := rfl
@[simp] theorem push_out (v : Byte) (s : State) : (push v s).out = s.out := rfl

@[simp] theorem dropTop_regs (s : State) : (dropTop s).regs = s.regs := rfl
@[simp] theorem dropTop_pc (s : State) : (dropTop s).pc = s.pc := rfl
@[simp] theorem dropTop_sp (s : State) : (dropTop s).sp = s.sp + 1 := rfl
@[simp] theorem dropTop_flags (s : State) : (dropTop s).flags = s.flags := rfl
@[simp] theorem dropTop_mem (s : State) : (dropTop s).mem = s.mem := rfl
@[simp] theorem dropTop_run (s : State) : (dropTop s).run = s.run := rfl
@[simp] theorem dropTop_out (s : State) : (dropTop s).out = s.out := rfl

/-- The state a fault leaves: only the run state differs (R161). -/
theorem raise_eq (c : FaultCause) (s : State) :
    raise c s = .next { s with run := .faulted { pc := s.pc, cause := c } } := rfl

@[simp] theorem construct_regs (r : RegFile) : (State.construct r).regs = r := rfl
@[simp] theorem construct_pc (r : RegFile) : (State.construct r).pc = 0 := rfl
@[simp] theorem construct_sp (r : RegFile) : (State.construct r).sp = 255 := rfl
@[simp] theorem construct_flags (r : RegFile) : (State.construct r).flags = ⟨false, false, false⟩ := rfl
@[simp] theorem construct_mem (r : RegFile) : (State.construct r).mem = [] := rfl
@[simp] theorem construct_run (r : RegFile) : (State.construct r).run = .running := rfl
@[simp] theorem construct_out (r : RegFile) : (State.construct r).out = [] := rfl

/-! Registers: a read sees the last write to its own register and no other (R20). -/

@[simp] theorem readReg_writeReg_same (r : RegIndex) (v : Byte) (s : State) :
    readReg (writeReg r v s) r = v := by
  simp [readReg]

theorem readReg_writeReg_ne (r q : RegIndex) (v : Byte) (s : State) (h : q ≠ r) :
    readReg (writeReg r v s) q = readReg s q := by
  have : r.val ≠ q.val := fun e => h (Fin.ext e.symm)
  simp [readReg, this]

end Sys2Proof.Machine
end

