-- ==== Sys2Proof/Laws/Operands.lean ====
section
/-! SUPPORT. What the operand form, the stack checks and the ALU can do, said once each. -/

namespace Sys2Proof.Machine

theorem regIndex_eq_some (b : RegOperand) (r : RegIndex) : regIndex b = some r ↔ b.toNat = r.val := by
  unfold regIndex
  split
  · next h => simp [Fin.ext_iff]
  · next h => simp; omega

theorem regIndex_eq_none (b : RegOperand) : regIndex b = none ↔ 7 < b.toNat := by
  unfold regIndex
  split <;> simp <;> omega

theorem regIndex_none_of_invalid {b : RegOperand} (h : RegOperand.valid b = false) : regIndex b = none := by
  rw [regIndex_eq_none]
  simp [RegOperand.valid] at h
  omega

theorem regIndex_some_of_valid {b : RegOperand} (h : RegOperand.valid b = true) : ∃ r, regIndex b = some r := by
  have h : b.toNat < 8 := by simpa [RegOperand.valid] using h
  exact ⟨⟨b.toNat, h⟩, by simp [regIndex, h]⟩

/-- A valid operand: the execution goes on with its register (R21, R84). -/
theorem withRegister_valid (b : RegOperand) (r : RegIndex) (s : State)
    (k : RegIndex → Host.Outcome State Fault Refusal) (h : b.toNat = r.val) : withRegister b s k = k r := by
  simp [withRegister, (regIndex_eq_some b r).mpr h]

/-- An operand above 7: InvalidRegister (R21, R84). -/
theorem withRegister_invalid (b : RegOperand) (s : State) (k : RegIndex → Host.Outcome State Fault Refusal)
    (h : 7 < b.toNat) : withRegister b s k = raise (.invalidRegister b) s := by
  simp [withRegister, (regIndex_eq_none b).mpr h]

/-- Everything register-operand validation can do. -/
theorem withRegister_cases (b : RegOperand) (s : State) (k : RegIndex → Host.Outcome State Fault Refusal) :
    (7 < b.toNat ∧ withRegister b s k = raise (.invalidRegister b) s) ∨
    (∃ r : RegIndex, b.toNat = r.val ∧ withRegister b s k = k r) := by
  by_cases h : b.toNat < 8
  · exact .inr ⟨⟨b.toNat, h⟩, rfl, withRegister_valid b ⟨b.toNat, h⟩ s k rfl⟩
  · exact .inl ⟨by omega, withRegister_invalid b s k (by omega)⟩

/-- Everything the check before a push can do (R85). -/
theorem withStackRoom_cases (s : State) (k : Host.Outcome State Fault Refusal) :
    (s.sp = 0 ∧ withStackRoom s k = raise (.stackOverflow s.sp) s) ∨ (s.sp ≠ 0 ∧ withStackRoom s k = k) := by
  by_cases h : s.sp = 0
  · exact .inl ⟨h, if_pos h⟩
  · exact .inr ⟨h, if_neg h⟩

/-- Everything the check before a pop can do (R85). -/
theorem withStackItem_cases (s : State) (k : Host.Outcome State Fault Refusal) :
    (s.sp = 255 ∧ withStackItem s k = raise (.stackUnderflow s.sp) s) ∨ (s.sp ≠ 255 ∧ withStackItem s k = k) := by
  by_cases h : s.sp = 255
  · exact .inl ⟨h, if_pos h⟩
  · exact .inr ⟨h, if_neg h⟩

/-! The ALU, operation by operation (R111 to R114). -/

theorem aluApply_add (a b : Byte) :
    aluApply (Mnemonic.opcode .add) a b = .ok (.value (BitVec.ofNat 8 (a.toNat + b.toNat))) := rfl

theorem aluApply_mul (a b : Byte) :
    aluApply (Mnemonic.opcode .mul) a b = .ok (.value (BitVec.ofNat 8 (a.toNat * b.toNat))) := rfl

theorem aluApply_cmp (a b : Byte) : aluApply (Mnemonic.opcode .cmp) a b = .ok (.flags (compareFlags a b)) := rfl

/-- The three comparisons are exclusive and cover every pair of bytes (R113). -/
theorem compareFlags_cases (a b : Byte) :
    (a = b ∧ compareFlags a b = ⟨true, false, false⟩) ∨
    (b.toNat < a.toNat ∧ compareFlags a b = ⟨false, true, false⟩) ∨
    (a.toNat < b.toNat ∧ compareFlags a b = ⟨false, false, true⟩) := by
  unfold compareFlags
  by_cases h : a = b
  · exact .inl ⟨h, by simp [h]⟩
  · have hn : a.toNat ≠ b.toNat := fun e => h (BitVec.eq_of_toNat_eq e)
    by_cases hg : b.toNat < a.toNat
    · exact .inr (.inl ⟨hg, by simp [h, hg]⟩)
    · exact .inr (.inr ⟨by omega, by simp [h, hg]⟩)

end Sys2Proof.Machine
end

