-- ==== Sys2Proof/Laws/Exec.lean ====
section
/-! SUPPORT. Everything each instruction can do: the fault it raises, or its effect. -/

namespace Sys2Proof.Machine

theorem exec_hlt (s : State) : exec .hlt s = .next (halt s) := rfl

theorem exec_ldi_cases (ra : RegOperand) (imm : Byte) (s : State) :
    (7 < ra.toNat ∧ exec (.ldi ra imm) s = raise (.invalidRegister ra) s) ∨
    (∃ a : RegIndex, ra.toNat = a.val ∧ exec (.ldi ra imm) s = .next (advance 3 (writeReg a imm s))) :=
  withRegister_cases ra s _

theorem exec_prn_cases (ra : RegOperand) (s : State) :
    (7 < ra.toNat ∧ exec (.prn ra) s = raise (.invalidRegister ra) s) ∨
    (∃ a : RegIndex, ra.toNat = a.val ∧ exec (.prn ra) s = .next (advance 2 (output (readReg s a) s))) :=
  withRegister_cases ra s _

/-- Both operands of an ALU instruction, ra checked first (R84). -/
theorem execAlu_cases (op : Byte) (ra rb : RegOperand) (s : State) :
    (7 < ra.toNat ∧ execAlu op ra rb s = raise (.invalidRegister ra) s) ∨
    (ra.toNat ≤ 7 ∧ 7 < rb.toNat ∧ execAlu op ra rb s = raise (.invalidRegister rb) s) ∨
    (∃ a b : RegIndex, ra.toNat = a.val ∧ rb.toNat = b.val ∧
      execAlu op ra rb s = match aluApply op (readReg s a) (readReg s b) with
        | .ok (.value v) => .next (advance 3 (writeReg a v s))
        | .ok (.flags f) => .next (advance 3 (setFlags f s))
        | .error c => raise c s) := by
  rcases withRegister_cases ra s (fun a => withRegister rb s fun b =>
    match aluApply op (readReg s a) (readReg s b) with
    | .ok (.value v) => .next (advance 3 (writeReg a v s))
    | .ok (.flags f) => .next (advance 3 (setFlags f s))
    | .error c => raise c s) with ⟨h, e⟩ | ⟨a, ha, e⟩
  · exact .inl ⟨h, e⟩
  · have hle : ra.toNat ≤ 7 := by omega
    rcases withRegister_cases rb s (fun b =>
      match aluApply op (readReg s a) (readReg s b) with
      | .ok (.value v) => .next (advance 3 (writeReg a v s))
      | .ok (.flags f) => .next (advance 3 (setFlags f s))
      | .error c => raise c s) with ⟨h, e'⟩ | ⟨b, hb, e'⟩
    · exact .inr (.inl ⟨hle, h, e.trans e'⟩)
    · exact .inr (.inr ⟨a, b, ha, hb, e.trans e'⟩)

theorem exec_add_cases (ra rb : RegOperand) (s : State) :
    (7 < ra.toNat ∧ exec (.add ra rb) s = raise (.invalidRegister ra) s) ∨
    (ra.toNat ≤ 7 ∧ 7 < rb.toNat ∧ exec (.add ra rb) s = raise (.invalidRegister rb) s) ∨
    (∃ a b : RegIndex, ra.toNat = a.val ∧ rb.toNat = b.val ∧ exec (.add ra rb) s =
      .next (advance 3 (writeReg a (BitVec.ofNat 8 ((readReg s a).toNat + (readReg s b).toNat)) s))) :=
  execAlu_cases (Mnemonic.opcode .add) ra rb s

theorem exec_mul_cases (ra rb : RegOperand) (s : State) :
    (7 < ra.toNat ∧ exec (.mul ra rb) s = raise (.invalidRegister ra) s) ∨
    (ra.toNat ≤ 7 ∧ 7 < rb.toNat ∧ exec (.mul ra rb) s = raise (.invalidRegister rb) s) ∨
    (∃ a b : RegIndex, ra.toNat = a.val ∧ rb.toNat = b.val ∧ exec (.mul ra rb) s =
      .next (advance 3 (writeReg a (BitVec.ofNat 8 ((readReg s a).toNat * (readReg s b).toNat)) s))) :=
  execAlu_cases (Mnemonic.opcode .mul) ra rb s

theorem exec_cmp_cases (ra rb : RegOperand) (s : State) :
    (7 < ra.toNat ∧ exec (.cmp ra rb) s = raise (.invalidRegister ra) s) ∨
    (ra.toNat ≤ 7 ∧ 7 < rb.toNat ∧ exec (.cmp ra rb) s = raise (.invalidRegister rb) s) ∨
    (∃ a b : RegIndex, ra.toNat = a.val ∧ rb.toNat = b.val ∧ exec (.cmp ra rb) s =
      .next (advance 3 (setFlags (compareFlags (readReg s a) (readReg s b)) s))) :=
  execAlu_cases (Mnemonic.opcode .cmp) ra rb s

theorem exec_psh_cases (ra : RegOperand) (s : State) :
    (7 < ra.toNat ∧ exec (.psh ra) s = raise (.invalidRegister ra) s) ∨
    (∃ a : RegIndex, ra.toNat = a.val ∧
      ((s.sp = 0 ∧ exec (.psh ra) s = raise (.stackOverflow s.sp) s) ∨
       (s.sp ≠ 0 ∧ exec (.psh ra) s = .next (advance 2 (push (readReg s a) s))))) := by
  rcases withRegister_cases ra s (fun a => withStackRoom s (.next (advance 2 (push (readReg s a) s)))) with
    h | ⟨a, ha, e⟩
  · exact .inl h
  · refine .inr ⟨a, ha, ?_⟩
    rcases withStackRoom_cases s (.next (advance 2 (push (readReg s a) s))) with ⟨h, e'⟩ | ⟨h, e'⟩
    · exact .inl ⟨h, e.trans e'⟩
    · exact .inr ⟨h, e.trans e'⟩

theorem exec_pop_cases (ra : RegOperand) (s : State) :
    (7 < ra.toNat ∧ exec (.pop ra) s = raise (.invalidRegister ra) s) ∨
    (∃ a : RegIndex, ra.toNat = a.val ∧
      ((s.sp = 255 ∧ exec (.pop ra) s = raise (.stackUnderflow s.sp) s) ∨
       (s.sp ≠ 255 ∧ exec (.pop ra) s = .next (advance 2 (writeReg a (stackTop s) (dropTop s)))))) := by
  rcases withRegister_cases ra s
    (fun a => withStackItem s (.next (advance 2 (writeReg a (stackTop s) (dropTop s))))) with h | ⟨a, ha, e⟩
  · exact .inl h
  · refine .inr ⟨a, ha, ?_⟩
    rcases withStackItem_cases s (.next (advance 2 (writeReg a (stackTop s) (dropTop s)))) with ⟨h, e'⟩ | ⟨h, e'⟩
    · exact .inl ⟨h, e.trans e'⟩
    · exact .inr ⟨h, e.trans e'⟩

theorem exec_cal_cases (ra : RegOperand) (s : State) :
    (7 < ra.toNat ∧ exec (.cal ra) s = raise (.invalidRegister ra) s) ∨
    (∃ a : RegIndex, ra.toNat = a.val ∧
      ((s.sp = 0 ∧ exec (.cal ra) s = raise (.stackOverflow s.sp) s) ∨
       (s.sp ≠ 0 ∧ exec (.cal ra) s = .next (jump (readReg s a) (push (returnAddress s) s))))) := by
  rcases withRegister_cases ra s
    (fun a => withStackRoom s (.next (jump (readReg s a) (push (returnAddress s) s)))) with h | ⟨a, ha, e⟩
  · exact .inl h
  · refine .inr ⟨a, ha, ?_⟩
    rcases withStackRoom_cases s (.next (jump (readReg s a) (push (returnAddress s) s))) with ⟨h, e'⟩ | ⟨h, e'⟩
    · exact .inl ⟨h, e.trans e'⟩
    · exact .inr ⟨h, e.trans e'⟩

theorem exec_ret_cases (s : State) :
    (s.sp = 255 ∧ exec .ret s = raise (.stackUnderflow s.sp) s) ∨
    (s.sp ≠ 255 ∧ exec .ret s = .next (jump (stackTop s) (dropTop s))) :=
  withStackItem_cases s _

theorem exec_jmp_cases (ra : RegOperand) (s : State) :
    (7 < ra.toNat ∧ exec (.jmp ra) s = raise (.invalidRegister ra) s) ∨
    (∃ a : RegIndex, ra.toNat = a.val ∧ exec (.jmp ra) s = .next (jump (readReg s a) s)) :=
  withRegister_cases ra s _

theorem exec_jeq_cases (ra : RegOperand) (s : State) :
    (7 < ra.toNat ∧ exec (.jeq ra) s = raise (.invalidRegister ra) s) ∨
    (∃ a : RegIndex, ra.toNat = a.val ∧
      exec (.jeq ra) s = .next (if s.flags.e then jump (readReg s a) s else advance 2 s)) :=
  withRegister_cases ra s _

theorem exec_jne_cases (ra : RegOperand) (s : State) :
    (7 < ra.toNat ∧ exec (.jne ra) s = raise (.invalidRegister ra) s) ∨
    (∃ a : RegIndex, ra.toNat = a.val ∧
      exec (.jne ra) s = .next (if (!s.flags.e) then jump (readReg s a) s else advance 2 s)) :=
  withRegister_cases ra s _

end Sys2Proof.Machine
end

