-- ==== Sys2Proof/Laws/Step.lean ====
section
/-! SUPPORT. Everything the fetch and one step can do. -/

namespace Sys2Proof.Machine

theorem memRead_ok (m : Memory) (a : Nat) (h : a < 256) : memRead m a = .ok (Memory.read m a) := by
  have h : a < Config.memSize := h
  simp [memRead, h]

theorem memRead_error (m : Memory) (a : Nat) (h : 256 ≤ a) : memRead m a = .error (.outOfBounds a) := by
  have h : ¬ a < Config.memSize := by simp only [Config.memSize]; omega
  simp [memRead, h]

/-- A fetch from pc <= 253 latches the three bytes at pc, pc+1 and pc+2 (R81). -/
theorem fetch_ok (s : State) (h : s.pc.toNat ≤ 253) :
    fetch s = .ok { opc := s.mem.read s.pc.toNat, operandA := s.mem.read (s.pc.toNat + 1),
                    operandB := s.mem.read (s.pc.toNat + 2) } := by
  unfold fetch
  rw [memRead_ok _ _ (by omega), memRead_ok _ _ (by omega), memRead_ok _ _ (by omega)]
  rfl

/-- A fetch from pc > 253 reports the first address out of range (R81). -/
theorem fetch_error (s : State) (h : 253 < s.pc.toNat) :
    fetch s = .error (.outOfBounds (max 256 s.pc.toNat)) := by
  unfold fetch
  by_cases h0 : 256 ≤ s.pc.toNat
  · rw [memRead_error _ _ h0, Nat.max_eq_right h0]; rfl
  · rw [memRead_ok _ _ (by omega), Nat.max_eq_left (by omega)]
    by_cases h1 : 256 ≤ s.pc.toNat + 1
    · rw [memRead_error _ _ h1, show s.pc.toNat + 1 = 256 by omega]; rfl
    · rw [memRead_ok _ _ (by omega), memRead_error _ _ (by omega), show s.pc.toNat + 2 = 256 by omega]; rfl

theorem fetchDecode_eq (s : State) (h : s.pc.toNat ≤ 253) :
    fetchDecode s = match decode { opc := s.mem.read s.pc.toNat, operandA := s.mem.read (s.pc.toNat + 1),
                                   operandB := s.mem.read (s.pc.toNat + 2) } with
      | .error e => .error (decodeCause e)
      | .ok i => .ok i := by
  unfold fetchDecode
  have e := fetch_ok s h
  generalize fetch s = r at e ⊢
  subst e
  rfl

theorem fetchDecode_error (s : State) (h : 253 < s.pc.toNat) :
    fetchDecode s = .error (.outOfBounds (max 256 s.pc.toNat)) := by
  rw [fetchDecode, fetch_error s h]

/-- The fetch and decode read only pc and memory (R81, R82). -/
theorem fetchDecode_congr (s t : State) (hp : t.pc = s.pc) (hm : t.mem = s.mem) : fetchDecode t = fetchDecode s := by
  unfold fetchDecode fetch
  rw [hp, hm]

theorem step_halted (s : State) (h : s.run = .halted) : step s = .fault .halted := by
  simp [step, h]

theorem step_faulted (s : State) (r : FaultRecord) (h : s.run = .faulted r) : step s = .fault (.faulted r) := by
  simp [step, h]

/-- A cycle of a running machine (R80). -/
theorem step_running (s : State) (h : s.run = .running) :
    step s = match fetchDecode s with
      | .error c => raise c s
      | .ok i => exec i s := by
  obtain ⟨_, _, _, _, _, _, _⟩ := s
  cases h
  rfl

/-- Everything a step that answers a next state can do. -/
theorem step_next_cases (s t : State) (h : step s = .next t) :
    s.run = .running ∧
    ((∃ c, fetchDecode s = .error c ∧ t = { s with run := .faulted { pc := s.pc, cause := c } }) ∨
     (∃ i, fetchDecode s = .ok i ∧ exec i s = .next t)) := by
  cases hr : s.run with
  | halted => simp [step_halted s hr] at h
  | faulted r => simp [step_faulted s r hr] at h
  | running =>
    refine ⟨rfl, ?_⟩
    rw [step_running s hr] at h
    cases hf : fetchDecode s with
    | error c =>
      rw [hf] at h
      simp only [raise_eq] at h
      injection h with h
      exact .inl ⟨c, rfl, h.symm⟩
    | ok i =>
      rw [hf] at h
      exact .inr ⟨i, rfl, h⟩

end Sys2Proof.Machine
end

