-- ==== Sys2Proof/Laws/Effect.lean ====
section
/-! SUPPORT. One inversion lemma for exec: a check of the cycle fails and its fault is taken, or the instruction has its
effect. -/

namespace Sys2Proof.Machine

/-- The execute phase of each instruction, as a relation between the state before and after. -/
inductive Effect : Instr → State → State → Prop where
  | hlt (s : State) : Effect .hlt s (halt s)
  | ldi (ra imm : Byte) (a : RegIndex) (s : State) : ra.toNat = a.val →
      Effect (.ldi ra imm) s (advance 3 (writeReg a imm s))
  | prn (ra : Byte) (a : RegIndex) (s : State) : ra.toNat = a.val →
      Effect (.prn ra) s (advance 2 (output (readReg s a) s))
  | add (ra rb : Byte) (a b : RegIndex) (s : State) : ra.toNat = a.val → rb.toNat = b.val →
      Effect (.add ra rb) s
        (advance 3 (writeReg a (BitVec.ofNat 8 ((readReg s a).toNat + (readReg s b).toNat)) s))
  | mul (ra rb : Byte) (a b : RegIndex) (s : State) : ra.toNat = a.val → rb.toNat = b.val →
      Effect (.mul ra rb) s
        (advance 3 (writeReg a (BitVec.ofNat 8 ((readReg s a).toNat * (readReg s b).toNat)) s))
  | cmp (ra rb : Byte) (a b : RegIndex) (s : State) : ra.toNat = a.val → rb.toNat = b.val →
      Effect (.cmp ra rb) s (advance 3 (setFlags (compareFlags (readReg s a) (readReg s b)) s))
  | psh (ra : Byte) (a : RegIndex) (s : State) : ra.toNat = a.val → s.sp ≠ 0 →
      Effect (.psh ra) s (advance 2 (push (readReg s a) s))
  | pop (ra : Byte) (a : RegIndex) (s : State) : ra.toNat = a.val → s.sp ≠ 255 →
      Effect (.pop ra) s (advance 2 (writeReg a (stackTop s) (dropTop s)))
  | cal (ra : Byte) (a : RegIndex) (s : State) : ra.toNat = a.val → s.sp ≠ 0 →
      Effect (.cal ra) s (jump (readReg s a) (push (returnAddress s) s))
  | ret (s : State) : s.sp ≠ 255 → Effect .ret s (jump (stackTop s) (dropTop s))
  | jmp (ra : Byte) (a : RegIndex) (s : State) : ra.toNat = a.val → Effect (.jmp ra) s (jump (readReg s a) s)
  | jeqTaken (ra : Byte) (a : RegIndex) (s : State) : ra.toNat = a.val → s.flags.e = true →
      Effect (.jeq ra) s (jump (readReg s a) s)
  | jeqNot (ra : Byte) (a : RegIndex) (s : State) : ra.toNat = a.val → s.flags.e = false →
      Effect (.jeq ra) s (advance 2 s)
  | jneTaken (ra : Byte) (a : RegIndex) (s : State) : ra.toNat = a.val → s.flags.e = false →
      Effect (.jne ra) s (jump (readReg s a) s)
  | jneNot (ra : Byte) (a : RegIndex) (s : State) : ra.toNat = a.val → s.flags.e = true →
      Effect (.jne ra) s (advance 2 s)

theorem valid_of_reg {b : RegOperand} {r : RegIndex} (h : b.toNat = r.val) : RegOperand.valid b = true := by
  simp [RegOperand.valid, h]

theorem invalid_of_gt {b : RegOperand} (h : 7 < b.toNat) : RegOperand.valid b = false := by
  simp [RegOperand.valid]; omega

theorem valid_of_le {b : RegOperand} (h : b.toNat ≤ 7) : RegOperand.valid b = true := by
  simp [RegOperand.valid]; omega

/-- Everything exec can do: take the fault of the first failing check, or have the instruction's effect. -/
theorem exec_cases (i : Instr) (s : State) :
    (∃ c, checkFault i s = some c ∧ exec i s = raise c s) ∨
    (checkFault i s = none ∧ ∃ t, exec i s = .next t ∧ Effect i s t) := by
  cases i with
  | hlt => exact .inr ⟨rfl, _, rfl, .hlt s⟩
  | ldi ra imm =>
    rcases exec_ldi_cases ra imm s with ⟨h, e⟩ | ⟨a, h, e⟩
    · exact .inl ⟨_, by simp [checkFault, Instr.firstInvalid, Instr.registerOperands, invalid_of_gt h], e⟩
    · exact .inr ⟨by simp [checkFault, Instr.firstInvalid, Instr.registerOperands, valid_of_reg h, pushes, pops],
        _, e, .ldi ra imm a s h⟩
  | prn ra =>
    rcases exec_prn_cases ra s with ⟨h, e⟩ | ⟨a, h, e⟩
    · exact .inl ⟨_, by simp [checkFault, Instr.firstInvalid, Instr.registerOperands, invalid_of_gt h], e⟩
    · exact .inr ⟨by simp [checkFault, Instr.firstInvalid, Instr.registerOperands, valid_of_reg h, pushes, pops],
        _, e, .prn ra a s h⟩
  | mul ra rb =>
    rcases exec_mul_cases ra rb s with ⟨h, e⟩ | ⟨h, h', e⟩ | ⟨a, b, h, h', e⟩
    · exact .inl ⟨_, by simp [checkFault, Instr.firstInvalid, Instr.registerOperands, invalid_of_gt h], e⟩
    · exact .inl ⟨_, by simp [checkFault, Instr.firstInvalid, Instr.registerOperands, valid_of_le h,
        invalid_of_gt h'], e⟩
    · exact .inr ⟨by simp [checkFault, Instr.firstInvalid, Instr.registerOperands, valid_of_reg h, valid_of_reg h',
        pushes, pops], _, e, .mul ra rb a b s h h'⟩
  | add ra rb =>
    rcases exec_add_cases ra rb s with ⟨h, e⟩ | ⟨h, h', e⟩ | ⟨a, b, h, h', e⟩
    · exact .inl ⟨_, by simp [checkFault, Instr.firstInvalid, Instr.registerOperands, invalid_of_gt h], e⟩
    · exact .inl ⟨_, by simp [checkFault, Instr.firstInvalid, Instr.registerOperands, valid_of_le h,
        invalid_of_gt h'], e⟩
    · exact .inr ⟨by simp [checkFault, Instr.firstInvalid, Instr.registerOperands, valid_of_reg h, valid_of_reg h',
        pushes, pops], _, e, .add ra rb a b s h h'⟩
  | cmp ra rb =>
    rcases exec_cmp_cases ra rb s with ⟨h, e⟩ | ⟨h, h', e⟩ | ⟨a, b, h, h', e⟩
    · exact .inl ⟨_, by simp [checkFault, Instr.firstInvalid, Instr.registerOperands, invalid_of_gt h], e⟩
    · exact .inl ⟨_, by simp [checkFault, Instr.firstInvalid, Instr.registerOperands, valid_of_le h,
        invalid_of_gt h'], e⟩
    · exact .inr ⟨by simp [checkFault, Instr.firstInvalid, Instr.registerOperands, valid_of_reg h, valid_of_reg h',
        pushes, pops], _, e, .cmp ra rb a b s h h'⟩
  | psh ra =>
    rcases exec_psh_cases ra s with ⟨h, e⟩ | ⟨a, h, ⟨hs, e⟩ | ⟨hs, e⟩⟩
    · exact .inl ⟨_, by simp [checkFault, Instr.firstInvalid, Instr.registerOperands, invalid_of_gt h], e⟩
    · exact .inl ⟨_, by simp [checkFault, Instr.firstInvalid, Instr.registerOperands, valid_of_reg h, pushes, hs], e⟩
    · exact .inr ⟨by simpa [checkFault, Instr.firstInvalid, Instr.registerOperands, valid_of_reg h, pushes, pops]
        using hs, _, e, .psh ra a s h hs⟩
  | pop ra =>
    rcases exec_pop_cases ra s with ⟨h, e⟩ | ⟨a, h, ⟨hs, e⟩ | ⟨hs, e⟩⟩
    · exact .inl ⟨_, by simp [checkFault, Instr.firstInvalid, Instr.registerOperands, invalid_of_gt h], e⟩
    · exact .inl ⟨_, by simp [checkFault, Instr.firstInvalid, Instr.registerOperands, valid_of_reg h, pushes, pops,
        hs], e⟩
    · exact .inr ⟨by simpa [checkFault, Instr.firstInvalid, Instr.registerOperands, valid_of_reg h, pushes, pops]
        using hs, _, e, .pop ra a s h hs⟩
  | cal ra =>
    rcases exec_cal_cases ra s with ⟨h, e⟩ | ⟨a, h, ⟨hs, e⟩ | ⟨hs, e⟩⟩
    · exact .inl ⟨_, by simp [checkFault, Instr.firstInvalid, Instr.registerOperands, invalid_of_gt h], e⟩
    · exact .inl ⟨_, by simp [checkFault, Instr.firstInvalid, Instr.registerOperands, valid_of_reg h, pushes, hs], e⟩
    · exact .inr ⟨by simpa [checkFault, Instr.firstInvalid, Instr.registerOperands, valid_of_reg h, pushes, pops]
        using hs, _, e, .cal ra a s h hs⟩
  | ret =>
    rcases exec_ret_cases s with ⟨hs, e⟩ | ⟨hs, e⟩
    · exact .inl ⟨_, by simp [checkFault, Instr.firstInvalid, Instr.registerOperands, pushes, pops, hs], e⟩
    · exact .inr ⟨by simpa [checkFault, Instr.firstInvalid, Instr.registerOperands, pushes, pops] using hs,
        _, e, .ret s hs⟩
  | jmp ra =>
    rcases exec_jmp_cases ra s with ⟨h, e⟩ | ⟨a, h, e⟩
    · exact .inl ⟨_, by simp [checkFault, Instr.firstInvalid, Instr.registerOperands, invalid_of_gt h], e⟩
    · exact .inr ⟨by simp [checkFault, Instr.firstInvalid, Instr.registerOperands, valid_of_reg h, pushes, pops],
        _, e, .jmp ra a s h⟩
  | jeq ra =>
    rcases exec_jeq_cases ra s with ⟨h, e⟩ | ⟨a, h, e⟩
    · exact .inl ⟨_, by simp [checkFault, Instr.firstInvalid, Instr.registerOperands, invalid_of_gt h], e⟩
    · refine .inr ⟨by simp [checkFault, Instr.firstInvalid, Instr.registerOperands, valid_of_reg h, pushes, pops],
        _, e, ?_⟩
      cases hf : s.flags.e with
      | true => exact .jeqTaken ra a s h hf
      | false => exact .jeqNot ra a s h hf
  | jne ra =>
    rcases exec_jne_cases ra s with ⟨h, e⟩ | ⟨a, h, e⟩
    · exact .inl ⟨_, by simp [checkFault, Instr.firstInvalid, Instr.registerOperands, invalid_of_gt h], e⟩
    · refine .inr ⟨by simp [checkFault, Instr.firstInvalid, Instr.registerOperands, valid_of_reg h, pushes, pops],
        _, e, ?_⟩
      cases hf : s.flags.e with
      | true => exact .jneNot ra a s h hf
      | false => exact .jneTaken ra a s h hf

end Sys2Proof.Machine
end

