-- ==== Sys2Proof/Laws/PerInstr.lean ====
section
/-! SUPPORT. One lemma per instruction, for statements about all instructions as syntax. -/

namespace Sys2Proof.Laws.EncodeShape

/-- The encoding is as long as the instruction's format says, begins with its opcode, and goes on with its operand bytes
(R60, R61). -/
def Statement (i : Instr) : Prop :=
  (encode i).length = i.mnemonic.format.length ∧ encode i = i.mnemonic.opcode :: i.operandBytes

theorem hlt : Statement .hlt := ⟨rfl, rfl⟩
theorem ldi (ra : RegOperand) (imm : Byte) : Statement (.ldi ra imm) := ⟨rfl, rfl⟩
theorem prn (ra : RegOperand) : Statement (.prn ra) := ⟨rfl, rfl⟩
theorem mul (ra rb : RegOperand) : Statement (.mul ra rb) := ⟨rfl, rfl⟩
theorem add (ra rb : RegOperand) : Statement (.add ra rb) := ⟨rfl, rfl⟩
theorem cmp (ra rb : RegOperand) : Statement (.cmp ra rb) := ⟨rfl, rfl⟩
theorem psh (ra : RegOperand) : Statement (.psh ra) := ⟨rfl, rfl⟩
theorem pop (ra : RegOperand) : Statement (.pop ra) := ⟨rfl, rfl⟩
theorem cal (ra : RegOperand) : Statement (.cal ra) := ⟨rfl, rfl⟩
theorem ret : Statement .ret := ⟨rfl, rfl⟩
theorem jmp (ra : RegOperand) : Statement (.jmp ra) := ⟨rfl, rfl⟩
theorem jeq (ra : RegOperand) : Statement (.jeq ra) := ⟨rfl, rfl⟩
theorem jne (ra : RegOperand) : Statement (.jne ra) := ⟨rfl, rfl⟩

end Sys2Proof.Laws.EncodeShape
end

