-- ==== Sys2Proof/Tests/Slice0.lean ====
section
/-! SUPPORT. Tests with the expected results of spec/95_test_vectors.md (V<n>, W<n>) and of the instruction rules, and for
each statement with hypotheses a named witness that meets them. -/

namespace Sys2Proof.Tests

open Sys2Proof.Machine

/-- A fresh machine with these bytes from address `a` on, and pc there. -/
def bootAt (a : Nat) (bytes : List Byte) : State :=
  { State.reset with pc := BitVec.ofNat 9 a, mem := Memory.place bytes a [] }

/-- The same with the registers, sp and flag E given. -/
def bootWith (a : Nat) (bytes : List Byte) (regs : RegFile) (sp : Byte) (e : Bool) : State :=
  { bootAt a bytes with regs := regs, sp := sp, flags := { e := e, g := false, l := false } }

/-- One field of the next state an outcome answers. -/
def nextField {α : Type} (f : State → α) : Host.Outcome State Fault Refusal → Option α
  | .next t => some (f t)
  | .fault _ => none
  | .refused _ => none

/-- The fault cause in the next state an outcome answers. -/
def causeOf : Host.Outcome State Fault Refusal → Option FaultCause
  | .next t => match t.run with
    | .faulted r => some r.cause
    | .running => none
    | .halted => none
  | .fault _ => none
  | .refused _ => none

/-! ## WellFormed: every register operand's check refuses an ill-formed term (R21, R84) -/

theorem test_wellFormed_refuses_ra :
    [Instr.ldi 8 0, .prn 8, .mul 8 0, .add 255 0, .cmp 8 0, .psh 8, .pop 8, .cal 8, .jmp 8, .jeq 8, .jne 8].all
      (fun i => !i.wellFormed) = true := by decide
theorem test_wellFormed_refuses_rb :
    [Instr.mul 0 8, .add 7 128, .cmp 0 8].all (fun i => !i.wellFormed) = true := by decide
theorem test_wellFormed_accepts :
    [Instr.hlt, .ret, .ldi 7 255, .prn 7, .mul 7 7, .add 0 7, .cmp 7 0, .psh 7, .pop 0, .cal 7, .jmp 7, .jeq 7,
      .jne 0].all Instr.wellFormed = true := by decide

/-! ## Decode: the bytes of R65 written out; the table word has the first byte lowest -/

theorem test_decode_hlt : decodeTableWord 8 0b00000001 = some .hlt := by decide
theorem test_decode_ldi : decodeTableWord 24 0b00001000_00000000_10000010 = some (.ldi 0 8) := by decide
theorem test_decode_prn : decodeTableWord 16 0b00000010_01000111 = some (.prn 2) := by decide
theorem test_decode_mul : decodeTableWord 24 0b00000001_00000000_10100010 = some (.mul 0 1) := by decide
theorem test_decode_add : decodeTableWord 24 0b00000001_00000000_10100000 = some (.add 0 1) := by decide
theorem test_decode_cmp : decodeTableWord 24 0b00000101_00000110_10100111 = some (.cmp 6 5) := by decide
theorem test_decode_psh : decodeTableWord 16 0b00000010_01000101 = some (.psh 2) := by decide
theorem test_decode_pop : decodeTableWord 16 0b00000011_01000110 = some (.pop 3) := by decide
theorem test_decode_cal : decodeTableWord 16 0b00000010_01010000 = some (.cal 2) := by decide
theorem test_decode_ret : decodeTableWord 8 0b00010001 = some .ret := by decide
theorem test_decode_jmp : decodeTableWord 16 0b00000001_01010100 = some (.jmp 1) := by decide
theorem test_decode_jeq : decodeTableWord 16 0b00000010_01010101 = some (.jeq 2) := by decide
theorem test_decode_jne : decodeTableWord 16 0b00000011_01010110 = some (.jne 3) := by decide
/-- V5, V6: 0x00 and the family's SUB byte 0xA1 are illegal. -/
theorem test_decode_illegal : decodeTableWord 8 0x00 = none ∧ decodeTableWord 24 0x0100A1 = none := by decide
/-- The encodings of the examples in R100, R113 and R146. -/
theorem test_encode : encode (.ldi 0 8) = [0x82, 0x00, 0x08] ∧ encode (.cmp 0 1) = [0xA7, 0x00, 0x01] ∧
    encode (.jne 3) = [0x56, 0x03] ∧ encode .ret = [0x11] := by decide

/-! ## Fetch and decode phases -/

/-- V3, V4: the address reported is 256. -/
theorem test_fetch_top : causeOf (step (bootAt 255 [0x01])) = some (.outOfBounds 256) ∧
    causeOf (step { State.reset with pc := 256 }) = some (.outOfBounds 256) := by decide
/-- V7: the fetch's fault comes before the decode's. -/
theorem test_fetch_before_decode : causeOf (step (bootAt 254 [0xA1])) = some (.outOfBounds 256) := by decide
/-- V6: the record names pc and opcode. -/
theorem test_illegal_opcode : nextField State.run (step (bootAt 0 [0xA1, 0x00, 0x01])) =
    some (.faulted { pc := 0, cause := .unrecognizedOpcode 0xA1 }) := by decide
/-- The first step of reset with a table word stored is that instruction. -/
theorem test_withFetchWord : nextField (fun t => t.regs[0]) (step (State.reset.withFetchWord 24 0x080082)) = some 8 := by
  decide

/-! ## The instructions -/

/-- V1: HLT at 253 halts and keeps pc. -/
theorem test_hlt_at_253 : nextField (fun t => (t.run, t.pc)) (step (bootAt 253 [0x01])) = some (.halted, 253) := by decide
/-- V14. -/
theorem test_ldi_r7 : nextField (fun t => (t.regs[7], t.pc)) (step (bootAt 10 [0x82, 0x07, 0xFF])) = some (255, 13) := by
  decide
/-- V8. -/
theorem test_ldi_r8 : causeOf (step (bootAt 0 [0x82, 0x08, 0x01])) = some (.invalidRegister 8) := by decide
/-- V15. -/
theorem test_prn_appends : nextField (fun t => (t.out, t.pc))
    (step { bootWith 5 [0x47, 0x02] #v[0, 0, 200, 0, 0, 0, 0, 0] 255 false with out := [1] }) = some ([1, 200], 7) := by
  decide
/-- V16. -/
theorem test_prn_r8 : causeOf (step (bootAt 0 [0x47, 0x08])) = some (.invalidRegister 8) := by decide
/-- V17. -/
theorem test_add_wraps : nextField (fun t => (t.regs[0], t.regs[1], t.flags.e, t.pc))
    (step (bootWith 0 [0xA0, 0x00, 0x01] #v[250, 10, 0, 0, 0, 0, 0, 0] 255 true)) = some (4, 10, true, 3) := by decide
/-- V9: ra is checked first. -/
theorem test_add_ra_first : causeOf (step (bootAt 0 [0xA0, 0x09, 0x08])) = some (.invalidRegister 9) := by decide
/-- V23. -/
theorem test_mul_wraps : nextField (fun t => (t.regs[0], t.regs[1]))
    (step (bootWith 0 [0xA2, 0x00, 0x01] #v[200, 2, 0, 0, 0, 0, 0, 0] 255 false)) = some (144, 2) := by decide
/-- V24. -/
theorem test_mul_square : nextField (fun t => t.regs[4])
    (step (bootWith 0 [0xA2, 0x04, 0x04] #v[0, 0, 0, 0, 255, 0, 0, 0] 255 false)) = some 1 := by decide
/-- V29: unsigned. -/
theorem test_cmp_greater : nextField State.flags
    (step (bootWith 0 [0xA7, 0x00, 0x01] #v[255, 0, 0, 0, 0, 0, 0, 0] 255 true)) = some ⟨false, true, false⟩ := by decide
/-- V30, V31. -/
theorem test_cmp_less_equal : nextField State.flags
      (step (bootWith 0 [0xA7, 0x00, 0x01] #v[0, 128, 0, 0, 0, 0, 0, 0] 255 true)) = some ⟨false, false, true⟩ ∧
    nextField State.flags (step (bootAt 0 [0xA7, 0x06, 0x06])) = some ⟨true, false, false⟩ := by decide
/-- V35: the last byte a push can reach. -/
theorem test_psh_address_zero : nextField (fun t => (t.sp, t.mem.read 0, t.pc))
    (step (bootWith 9 [0x45, 0x00] #v[9, 0, 0, 0, 0, 0, 0, 0] 1 false)) = some (0, 9, 11) := by decide
/-- V12: the register is checked before the stack. -/
theorem test_psh_register_first : causeOf (step (bootWith 0 [0x45, 0x09] Config.regInit 0 false)) =
    some (.invalidRegister 9) := by decide
/-- V33: the popped byte stays in memory. -/
theorem test_pop_keeps_byte : nextField (fun t => (t.regs[3], t.sp, t.mem.read 254))
    (step { bootWith 0 [0x46, 0x03] Config.regInit 254 false with mem := [(0, 0x46), (1, 0x03), (254, 42)] }) =
      some (42, 255, 42) := by decide
/-- V34. -/
theorem test_pop_empty : causeOf (step (bootAt 0 [0x46, 0x00])) = some (.stackUnderflow 255) := by decide
/-- V41. -/
theorem test_cal_at_253 : nextField (fun t => (t.mem.read 254, t.sp, t.pc)) (step (bootAt 253 [0x50, 0x00])) =
    some (255, 254, 0) := by decide
/-- V40: pc and memory unchanged. -/
theorem test_cal_overflow : nextField State.run (step (bootWith 9 [0x50, 0x02] Config.regInit 0 false)) =
    some (.faulted { pc := 9, cause := .stackOverflow 0 }) := by decide
/-- V42. -/
theorem test_ret_pops_pc : nextField (fun t => (t.pc, t.sp))
    (step { bootWith 17 [0x11] Config.regInit 254 false with mem := [(17, 0x11), (254, 11)] }) = some (11, 255) := by
  decide
/-- V43. -/
theorem test_ret_empty : causeOf (step (bootAt 0 [0x11])) = some (.stackUnderflow 255) := by decide
/-- V45: a target of 255 is accepted. -/
theorem test_jmp_to_top : nextField State.pc
    (step (bootWith 0 [0x54, 0x01] #v[0, 255, 0, 0, 0, 0, 0, 0] 255 false)) = some 255 := by decide
/-- V46 and V47. -/
theorem test_jeq_both_ways : nextField State.pc
      (step (bootWith 12 [0x55, 0x02] #v[0, 0, 20, 0, 0, 0, 0, 0] 255 true)) = some 20 ∧
    nextField State.pc (step (bootWith 12 [0x55, 0x02] #v[0, 0, 20, 0, 0, 0, 0, 0] 255 false)) = some 14 := by decide
/-- V11: the operand is checked where the jump is not taken. -/
theorem test_jeq_checks_operand : causeOf (step (bootAt 0 [0x55, 0x09])) = some (.invalidRegister 9) := by decide
/-- V48 and V49. -/
theorem test_jne_both_ways : nextField State.pc
      (step (bootWith 20 [0x56, 0x03] #v[0, 0, 0, 12, 0, 0, 0, 0] 255 false)) = some 12 ∧
    nextField State.pc (step (bootWith 20 [0x56, 0x03] #v[0, 0, 0, 12, 0, 0, 0, 0] 255 true)) = some 22 := by decide

/-! ## Host interface and assembly -/

/-- A halted machine has no further cycle (R172). -/
theorem test_step_after_halt : nextField State.pc (step { State.reset with run := .halted }) = none := by decide
/-- R184 and R160. -/
theorem test_exit_status : exitStatus .halted = some 0 ∧
    exitStatus (.faulted { pc := 3, cause := .unrecognizedOpcode 0xFF }) = some 1 ∧
    faultCode (.unrecognizedOpcode 0xFF) = 6 := by decide
/-- R185: bytes beyond 255 are absent. -/
theorem test_trace_at_top : (traceView (bootAt 254 [0x01, 0x07])).byte1 = some 7 ∧
    (traceView (bootAt 254 [0x01, 0x07])).byte2 = none := by decide
/-- R25: the hook observes G and L. -/
theorem test_trace_flags : (traceView { State.reset with flags := { e := false, g := true, l := false } }).g = true ∧
    (traceView { State.reset with flags := { e := false, g := false, l := true } }).l = true := by decide
/-- The first lines of P2 with a label for its address 5 + 6. -/
theorem test_assemble : assemble [.ldi 2 (.label "equal"), .cmp 0 1, .jeq 2, .hlt, .label "equal", .prn 3, .byte 0xFF] =
    some [0x82, 0x02, 0x09, 0xA7, 0x00, 0x01, 0x55, 0x02, 0x01, 0x47, 0x03, 0xFF] := by decide
/-- R69's example line. -/
theorem test_line_text : lineText (.ldi 0 (.num 8)) = "LDI R0, 8" := by decide

/-! ## Witnesses: concrete states and operands that meet the hypotheses of each statement -/

/-- The operand 7 selects R7, the last register. -/
theorem witness_last_register : (7 : Byte).toNat = (7 : RegIndex).val ∧ 7 < (8 : Byte).toNat ∧ (7 : Byte).toNat ≤ 7 := by
  decide
/-- A running machine just past the last address a fetch accepts, and one at it. -/
theorem witness_fetch_bound : (bootAt 254 []).run = .running ∧ 253 < (bootAt 254 []).pc.toNat ∧
    255 < (bootAt 254 []).pc.toNat + 2 ∧ (bootAt 253 []).run = .running ∧ (bootAt 253 []).pc.toNat ≤ 253 := by decide

theorem witness_LoadPlacesImageAtZero : (List.replicate 256 (1 : Byte)).length ≤ 256 ∧
    255 < (List.replicate 256 (1 : Byte)).length ∧ (List.replicate 256 (1 : Byte)).length ≤ 256 ∧
    256 < (List.replicate 257 (1 : Byte)).length := by
  simp only [List.length_replicate]; omega
theorem witness_CanonicalMemoryIsDeterminedByItsBytes : Memory.wf [(0, 1), (255, 2)] ∧
    ∀ a, a < 256 → Memory.read [(0, 1), (255, 2)] a = Memory.read [(0, 1), (255, 2)] a := ⟨by decide, fun _ _ => rfl⟩
theorem witness_IllegalOpcodeIsFatal : Fetches (bootAt 253 [0xA1, 1, 2]) 0xA1 1 2 ∧
    (0xA1 : Byte).toNat ∉ [1, 130, 71, 162, 160, 167, 69, 70, 80, 17, 84, 85, 86] := by decide
theorem witness_UnusedOperandBytesAreNotConsulted : fetchDecode (bootAt 253 [0x01]) = .ok .hlt ∧
    (bootAt 253 [0x01]).pc.toNat + (encode .hlt).length ≤ 254 ∧ Instr.ret.mnemonic.format = .z ∧
    (Instr.jmp 0).mnemonic.format = .r := ⟨rfl, by decide, rfl, rfl⟩
theorem witness_StepRunsTheDecodedInstruction : Fetches (bootAt 253 [0xA0, 7, 0]) 0xA0 7 0 ∧
    decode { opc := 0xA0, operandA := 7, operandB := 0 } = .ok (.add 7 0) := ⟨by decide, rfl⟩
theorem witness_StoredTableWordIsRunNext : (bootAt 253 []).run = .running ∧ (bootAt 253 []).pc.toNat ≤ 253 ∧
    decodeTableWord 16 0x0747 = some (.prn 7) := by decide
/-- The push and pop bounds: sp = 1 has room and sp = 0 has none, sp = 254 has an item and sp = 255 has none. -/
theorem witness_stack_bounds : (bootWith 0 [] Config.regInit 1 false).sp ≠ 0 ∧
    (bootWith 0 [] Config.regInit 0 false).sp = 0 ∧ (bootWith 0 [] Config.regInit 254 false).sp ≠ 255 ∧
    (bootAt 253 []).sp = 255 ∧ (bootAt 253 []).sp ≠ 0 ∧ (bootAt 253 []).pc.toNat ≤ 253 := by decide
theorem witness_JmpSetsThePc :
    (bootWith 9 [] #v[9, 0, 0, 0, 0, 0, 0, 0] 255 false).pc.toNat =
      ((bootWith 9 [] #v[9, 0, 0, 0, 0, 0, 0, 0] 255 false).regs[0]).toNat ∧ (0 : Byte).toNat = (0 : RegIndex).val := by
  decide
/-- Both sides of the conditional jumps. -/
theorem witness_JeqAndJne : (bootWith 0 [] Config.regInit 255 true).flags.e = true ∧
    (bootWith 0 [] Config.regInit 255 false).flags.e = false := by decide
theorem witness_HltHaltsAndNothingFollows : exec .hlt State.reset = .next { State.reset with run := .halted } := rfl
theorem witness_PrnEmitsItsRegister : (∃ t, exec (.prn 8) State.reset = .next t) ∧
    ∃ t record, step State.reset = .next t ∧ t.run = .faulted record := ⟨⟨_, rfl⟩, _, _, rfl, rfl⟩
theorem witness_RegisterWriteFrame : (∃ t, exec (.ldi 7 9) State.reset = .next t) ∧
    (∃ t, exec (.add 7 0) State.reset = .next t) ∧ (∃ t, exec (.mul 7 0) State.reset = .next t) ∧
    (0 : RegIndex).val ≠ (7 : Byte).toNat := ⟨⟨_, rfl⟩, ⟨_, rfl⟩, ⟨_, rfl⟩, by decide⟩
theorem witness_CompareAndPrintFrame : (∃ t, exec (.cmp 7 0) State.reset = .next t) ∧
    (∃ t, exec (.prn 7) State.reset = .next t) := ⟨⟨_, rfl⟩, ⟨_, rfl⟩⟩
theorem witness_PushFrame : (∃ t, exec (.psh 7) State.reset = .next t) ∧ (∃ t, exec (.cal 7) State.reset = .next t) ∧
    255 ≠ pushAddress State.reset := ⟨⟨_, rfl⟩, ⟨_, rfl⟩, by decide⟩
theorem witness_PopFrame : (∃ t, exec (.pop 7) (bootWith 0 [] Config.regInit 254 false) = .next t) ∧
    (∃ t, exec .ret (bootWith 0 [] Config.regInit 254 false) = .next t) := ⟨⟨_, rfl⟩, ⟨_, rfl⟩⟩
theorem witness_JumpAndHaltFrame : (∃ t, exec (.jmp 7) State.reset = .next t) ∧
    (∃ t, exec (.jeq 7) State.reset = .next t) ∧ (∃ t, exec (.jne 7) State.reset = .next t) ∧
    ∃ t, exec .hlt State.reset = .next t := ⟨⟨_, rfl⟩, ⟨_, rfl⟩, ⟨_, rfl⟩, ⟨_, rfl⟩⟩
theorem witness_StepKeepsTheInvariant : (bootAt 253 [0x82, 1, 2]).Inv ∧ ∃ t, step (bootAt 253 [0x82, 1, 2]) = .next t :=
  ⟨⟨by decide, by decide, by decide, fun _ h => by cases h⟩, _, rfl⟩
theorem witness_EveryRunMeetsTheInvariant : ∃ s, buildMachine Config.regInit [0x01] = .next s := ⟨_, rfl⟩
theorem witness_FaultIsTheFirstFailingCheck : (bootAt 0 [0xA0, 9, 8]).run = .running ∧
    cycleFault (bootAt 0 [0xA0, 9, 8]) = some (.invalidRegister 9) ∧ cycleFault (bootAt 253 [0x01]) = none := by decide
/-- A cycle that faults, one that halts, and a machine that has left Running. -/
theorem witness_faults_and_halt : (∃ t record, step (bootAt 0 [0x46, 0]) = .next t ∧ t.run = .faulted record) ∧
    (∃ t, step (bootAt 253 [0x01]) = .next t ∧ t.run = .halted) ∧
    ({ State.reset with run := .halted } : State).run ≠ .running := ⟨⟨_, _, rfl, rfl⟩, ⟨_, rfl, rfl⟩, by decide⟩
theorem witness_UnsupportedAluOperationIsNeverRaised : (0xA1 : Byte).toNat ∉ [160, 162, 167] := by decide
theorem witness_OperandBytesAboveSevenRaiseInvalidRegister : (∃ b ∈ (Instr.add 7 8).registerOperands, 7 < b.toNat) ∧
    State.reset.run = .running ∧ (∀ b ∈ (Instr.add 7 0).registerOperands, b.toNat ≤ 7) := by decide
theorem witness_OnlyCmpWritesTheFlags :
    ∃ t, step (bootAt 0 [0xA7, 0, 1]) = .next t ∧ t.flags ≠ (bootAt 0 [0xA7, 0, 1]).flags := ⟨_, rfl, by decide⟩
theorem witness_GreaterAndLessAreNeverConsulted :
    let s := bootAt 0 [0x55, 0]
    let t : State := { s with flags := { e := false, g := true, l := true } }
    t = { s with flags := t.flags } ∧ t.flags.e = s.flags.e := ⟨rfl, rfl⟩
theorem witness_OutputIsAppendOnlyAndNeverRead :
    ∃ t, step (bootAt 0 [0x47, 7]) = .next t ∧ t.out ≠ (bootAt 0 [0x47, 7]).out := ⟨_, rfl, by decide⟩
theorem witness_StackPointerMovesOnlyByPushAndPop :
    (∃ t, step (bootAt 0 [0x45, 7]) = .next t ∧ t.sp ≠ (bootAt 0 [0x45, 7]).sp) ∧
    (∃ t, step (bootWith 0 [0x46, 7] Config.regInit 254 false) = .next t ∧ t.sp ≠ 254) ∧
    pushes (.jmp 0) = false ∧ pops (.jmp 0) = false := ⟨⟨_, rfl, by decide⟩, ⟨_, rfl, by decide⟩, rfl, rfl⟩
theorem witness_MemoryChangesOnlyByPushes :
    ∃ t, step (bootAt 9 [0x50, 0]) = .next t ∧ t.mem.read 254 ≠ (bootAt 9 [0x50, 0]).mem.read 254 := ⟨_, rfl, by decide⟩
theorem witness_PopsReturnPushesInReverse : [(0 : RegIndex), 1].length ≤ (bootWith 0 [] Config.regInit 2 false).sp.toNat ∧
    [(3 : RegIndex), 3].length = [(0 : RegIndex), 1].length ∧ ([(3 : RegIndex), 4])[1] ≠ ([(3 : RegIndex), 4])[0] := by decide
theorem witness_RetResumesAfterTheCal : ∃ t u, exec (.cal 0) (bootAt 253 [0x50, 0]) = .next t ∧ u = t ∧ u.sp = t.sp ∧
    Memory.read u.mem u.sp.toNat = Memory.read t.mem t.sp.toNat := ⟨_, _, rfl, rfl, rfl, rfl⟩
theorem witness_BranchFollowsTheLastCompare : (∀ i ∈ [Instr.ldi 0 1, .prn 0], i.mnemonic ≠ .cmp) ∧
    ∃ t, execAll [.ldi 0 1, .prn 0] State.reset = .next t := ⟨by decide, _, rfl⟩
theorem witness_SelfOverwritingCalUsesItsLatchedOperand :
    Fetches (bootAt 253 [0x50, 7, 9]) 0b01010000 7 9 ∧ (bootAt 253 [0x50, 7, 9]).sp.toNat = 253 + 2 := by decide
theorem witness_NextFetchSeesAStoredByte :
    let s := bootWith 251 [0x45, 0, 9] Config.regInit 254 false
    Fetches s 0b01000101 0 9 ∧ s.pc.toNat + 2 ≤ 253 ∧ s.sp.toNat = s.pc.toNat + 3 := by decide
theorem witness_SelfCallBelowItselfOverflows :
    let s := bootWith 5 [0x50, 0, 9] #v[5, 0, 0, 0, 0, 0, 0, 0] 5 false
    Fetches s 0b01010000 0 9 ∧ (s.regs[0]).toNat = s.pc.toNat ∧ s.sp.toNat ≤ s.pc.toNat := by decide
theorem witness_SelfJumpRunsForever :
    let s := bootWith 5 [0x54, 0, 9] #v[5, 0, 0, 0, 0, 0, 0, 0] 255 false
    Fetches s 0b01010100 0 9 ∧ (s.regs[0]).toNat = s.pc.toNat := by decide
theorem witness_EndStatusReportsRunAndOutput : State.reset.run = .running ∧
    ({ State.reset with run := .halted } : State).run = .halted := by decide
theorem witness_RunEndsWhereRunLeavesRunning : (runToEnd 1 (bootAt 253 [0x01])).run ≠ .running := by decide
theorem witness_TraceHookSeesTheFetchedBytes : (∃ l, fetch (bootAt 253 [0x01]) = .ok l) ∧
    255 < (bootAt 254 []).pc.toNat + 2 ∧ 255 < (bootAt 255 []).pc.toNat + 1 ∧ 255 < (bootAt 256 []).pc.toNat :=
  ⟨⟨_, rfl⟩, by decide, by decide, by decide⟩
theorem witness_AssembledLinesHaveTheirLength : bytesOf [] [.hlt, .byte 7] = some [0x01, 7] := by decide

end Sys2Proof.Tests
end

section
/-! Laws shared by the proofs: what a decoded instruction says of the bytes at pc, what each execution phase does to the
run state and the output, and everything a completed step can be. -/

namespace Sys2Proof.Machine

variable {i : Instr} {s t : State}

/-! Decoding: the byte at pc is the opcode of the instruction decoded (R82). -/

theorem opcode_of_mnemonicOf {opc : Byte} {m : Mnemonic} (h : mnemonicOf opc = some m) : m.opcode = opc := by
  simpa using List.find?_some h

@[simp] theorem mnemonic_ofOperands (m : Mnemonic) (a b : Byte) : (Instr.ofOperands m a b).mnemonic = m := by
  cases m <;> rfl

theorem opcode_of_decode {l : FetchLatch} (h : decode l = .ok i) : i.mnemonic.opcode = l.opc := by
  unfold decode at h
  split at h
  next m hm =>
    cases h
    rw [mnemonic_ofOperands, opcode_of_mnemonicOf hm]
  next => cases h

/-- A cycle that decodes an instruction fetched from a pc of at most 253, and found its opcode there. -/
theorem fetchDecode_ok (h : fetchDecode s = .ok i) :
    s.pc.toNat ≤ 253 ∧ Memory.read s.mem s.pc.toNat = i.mnemonic.opcode := by
  by_cases hpc : s.pc.toNat ≤ 253
  · refine ⟨hpc, ?_⟩
    rw [fetchDecode_eq s hpc] at h
    split at h
    next => cases h
    next hd =>
      cases h
      exact (opcode_of_decode hd).symm
  · rw [fetchDecode_error s (by omega)] at h
    cases h

/-! The check phases, where the decode is known. -/

theorem cycleFault_of_fetchDecode_error {c : FaultCause} (h : fetchDecode s = .error c) : cycleFault s = some c := by
  rw [cycleFault, h]

theorem cycleFault_of_fetchDecode_ok (h : fetchDecode s = .ok i) : cycleFault s = checkFault i s := by
  rw [cycleFault, h]

/-- The operand and stack checks read the instruction and sp, nothing else of the state (R84, R85). -/
theorem checkFault_congr (i : Instr) (h : t.sp = s.sp) : checkFault i t = checkFault i s := by
  unfold checkFault
  rw [h]

/-! The execute phase. -/

/-- `Effect` holds only of what `exec` answers: with `exec_cases`, it is exactly `exec` where no check fails. -/
theorem Effect.exec_eq (h : Effect i s t) : exec i s = .next t := by
  cases h with
  | hlt => rfl
  | ldi ra imm a _ ha => exact withRegister_valid ra a s _ ha
  | prn ra a _ ha => exact withRegister_valid ra a s _ ha
  | add ra rb a b _ ha hb => exact (withRegister_valid ra a s _ ha).trans (withRegister_valid rb b s _ hb)
  | mul ra rb a b _ ha hb => exact (withRegister_valid ra a s _ ha).trans (withRegister_valid rb b s _ hb)
  | cmp ra rb a b _ ha hb => exact (withRegister_valid ra a s _ ha).trans (withRegister_valid rb b s _ hb)
  | psh ra a _ ha hs => exact (withRegister_valid ra a s _ ha).trans (if_neg hs)
  | pop ra a _ ha hs => exact (withRegister_valid ra a s _ ha).trans (if_neg hs)
  | cal ra a _ ha hs => exact (withRegister_valid ra a s _ ha).trans (if_neg hs)
  | ret _ hs => exact if_neg hs
  | jmp ra a _ ha => exact withRegister_valid ra a s _ ha
  | jeqTaken ra a _ ha he => exact (withRegister_valid ra a s _ ha).trans (by rw [he]; rfl)
  | jeqNot ra a _ ha he => exact (withRegister_valid ra a s _ ha).trans (by rw [he]; rfl)
  | jneTaken ra a _ ha he => exact (withRegister_valid ra a s _ ha).trans (by rw [he]; rfl)
  | jneNot ra a _ ha he => exact (withRegister_valid ra a s _ ha).trans (by rw [he]; rfl)

/-- The run state after an execute phase: HLT halts, no other instruction touches it (R87). -/
theorem Effect.run_cases (h : Effect i s t) : (i = .hlt ∧ t.run = .halted) ∨ t.run = s.run := by
  cases h with
  | hlt => exact .inl ⟨rfl, rfl⟩
  | _ => exact .inr rfl

/-- The output after an execute phase: PRN appends one byte, no other instruction touches it (R28, R101). -/
theorem Effect.out_cases (h : Effect i s t) : (∃ ra v, i = .prn ra ∧ t.out = s.out ++ [v]) ∨ t.out = s.out := by
  cases h with
  | prn ra a => exact .inl ⟨ra, readReg s a, rfl, rfl⟩
  | _ => exact .inr rfl

/-- A failing operand or stack check is what the instruction raises (R84, R85). -/
theorem exec_of_checkFault_some {c : FaultCause} (h : checkFault i s = some c) : exec i s = raise c s := by
  rcases exec_cases i s with ⟨c', hc', hr⟩ | ⟨hnone, _⟩
  · rw [h] at hc'
    cases hc'
    exact hr
  · rw [h] at hnone
    cases hnone

/-! The step. -/

/-- Everything a step that answers a next state can be: a failing check whose fault is taken, or the effect of the
decoded instruction. -/
theorem step_effect_cases (h : step s = .next t) :
    s.run = .running ∧
    ((∃ c, cycleFault s = some c ∧ t = { s with run := .faulted { pc := s.pc, cause := c } }) ∨
     (∃ i, fetchDecode s = .ok i ∧ Effect i s t)) := by
  obtain ⟨hrun, ⟨c, hf, ht⟩ | ⟨i, hf, he⟩⟩ := step_next_cases s t h
  · exact ⟨hrun, .inl ⟨c, cycleFault_of_fetchDecode_error hf, ht⟩⟩
  · refine ⟨hrun, ?_⟩
    rcases exec_cases i s with ⟨c, hc, hr⟩ | ⟨_, u, hu, heff⟩
    · rw [hr, raise_eq] at he
      cases he
      exact .inl ⟨c, (cycleFault_of_fetchDecode_ok hf).trans hc, rfl⟩
    · rw [hu] at he
      cases he
      exact .inr ⟨i, hf, heff⟩

/-- A cycle exists where the machine runs, whatever it meets (R80). -/
theorem step_next_of_running (h : s.run = .running) : ∃ t, step s = .next t := by
  rw [step_running s h]
  cases fetchDecode s with
  | error c => exact ⟨_, rfl⟩
  | ok i =>
    rcases exec_cases i s with ⟨_, _, hr⟩ | ⟨_, t, ht, _⟩
    · exact ⟨_, hr⟩
    · exact ⟨t, ht⟩

end Sys2Proof.Machine
end

section
/-! The run state (R27): only HLT sets Halted, only a failing check sets Faulted, and both are terminal. -/

namespace Sys2Proof.Machine

variable {s t : State}

theorem fetchDecode_hlt_of_halts (h : step s = .next t) (ht : t.run = .halted) : fetchDecode s = .ok .hlt := by
  obtain ⟨hrun, ⟨c, _, rfl⟩ | ⟨i, hf, heff⟩⟩ := step_effect_cases h
  · cases ht
  · rcases heff.run_cases with ⟨rfl, _⟩ | hkeep
    · exact hf
    · simp [hkeep, hrun] at ht

theorem cycleFault_of_faults {record : FaultRecord} (h : step s = .next t) (ht : t.run = .faulted record) :
    cycleFault s ≠ none := by
  obtain ⟨hrun, ⟨c, hc, _⟩ | ⟨i, _, heff⟩⟩ := step_effect_cases h
  · simp [hc]
  · rcases heff.run_cases with ⟨_, hhalt⟩ | hkeep
    · simp [hhalt] at ht
    · simp [hkeep, hrun] at ht

/-- Settles O36, from the two ways a step can end: a failing check's fault, or the effect of the decoded instruction. -/
theorem runStateIsSetOnlyByHltAndFaults : Obligations.RunStateIsSetOnlyByHltAndFaults :=
  ⟨construct_run,
   fun _ _ => fetchDecode_hlt_of_halts,
   fun _ _ _ => cycleFault_of_faults,
   fun _ _ hstopped h => hstopped (step_effect_cases h).1⟩

end Sys2Proof.Machine
end

section
/-! The output (R28): only PRN appends to it, and no cycle reads it. That nothing reads it is shown by putting bytes in
front of it: a cycle carries them along and does the same otherwise. -/

namespace Sys2Proof.Machine

/-- The state with bytes emitted before all those it holds. -/
def State.prependOut (o : List Byte) (s : State) : State := { s with out := o ++ s.out }

variable {i : Instr} {s t : State}

theorem Effect.prependOut (o : List Byte) (h : Effect i s t) : Effect i (s.prependOut o) (t.prependOut o) := by
  cases h with
  | hlt => exact .hlt _
  | ldi ra imm a _ ha => exact .ldi ra imm a (s.prependOut o) ha
  | prn ra a _ ha =>
    have hcomm : (advance 2 (output (readReg s a) s)).prependOut o =
        advance 2 (output (readReg (s.prependOut o) a) (s.prependOut o)) := by
      simp [State.prependOut, advance, output, readReg]
    exact hcomm ▸ .prn ra a (s.prependOut o) ha
  | add ra rb a b _ ha hb => exact .add ra rb a b (s.prependOut o) ha hb
  | mul ra rb a b _ ha hb => exact .mul ra rb a b (s.prependOut o) ha hb
  | cmp ra rb a b _ ha hb => exact .cmp ra rb a b (s.prependOut o) ha hb
  | psh ra a _ ha hs => exact .psh ra a (s.prependOut o) ha hs
  | pop ra a _ ha hs => exact .pop ra a (s.prependOut o) ha hs
  | cal ra a _ ha hs => exact .cal ra a (s.prependOut o) ha hs
  | ret _ hs => exact .ret (s.prependOut o) hs
  | jmp ra a _ ha => exact .jmp ra a (s.prependOut o) ha
  | jeqTaken ra a _ ha he => exact .jeqTaken ra a (s.prependOut o) ha he
  | jeqNot ra a _ ha he => exact .jeqNot ra a (s.prependOut o) ha he
  | jneTaken ra a _ ha he => exact .jneTaken ra a (s.prependOut o) ha he
  | jneNot ra a _ ha he => exact .jneNot ra a (s.prependOut o) ha he

theorem exec_prependOut (o : List Byte) (h : exec i s = .next t) :
    exec i (s.prependOut o) = .next (t.prependOut o) := by
  rcases exec_cases i s with ⟨c, hc, hr⟩ | ⟨_, u, hu, heff⟩
  · rw [hr, raise_eq] at h
    cases h
    have hc' : checkFault i (s.prependOut o) = some c := (checkFault_congr i rfl).trans hc
    rw [exec_of_checkFault_some hc']
    rfl
  · rw [hu] at h
    cases h
    exact (heff.prependOut o).exec_eq

theorem step_prependOut (o : List Byte) (h : step s = .next t) :
    step (s.prependOut o) = .next (t.prependOut o) := by
  obtain ⟨hrun, hcase⟩ := step_next_cases s t h
  have hfetch : fetchDecode (s.prependOut o) = fetchDecode s := fetchDecode_congr s _ rfl rfl
  rw [step_running (s.prependOut o) hrun, hfetch]
  obtain ⟨c, hf, rfl⟩ | ⟨i, hf, he⟩ := hcase
  · rw [hf]
    rfl
  · rw [hf]
    exact exec_prependOut o he

theorem exec_prn_out {ra : Byte} {r : RegIndex} (h : ra.toNat = r.val) :
    ∃ t, exec (.prn ra) s = .next t ∧ t.out = s.out ++ [s.regs[r]] :=
  ⟨_, (Effect.prn ra r s h).exec_eq, rfl⟩

theorem prn_of_step_out_ne (h : step s = .next t) (hne : t.out ≠ s.out) :
    s.pc.toNat ≤ 253 ∧ Memory.read s.mem s.pc.toNat = 0b01000111 ∧ ∃ v, t.out = s.out ++ [v] := by
  obtain ⟨_, ⟨c, _, rfl⟩ | ⟨i, hf, heff⟩⟩ := step_effect_cases h
  · exact absurd rfl hne
  · rcases heff.out_cases with ⟨ra, v, rfl, hout⟩ | hkeep
    · obtain ⟨hpc, hopc⟩ := fetchDecode_ok hf
      exact ⟨hpc, hopc, v, hout⟩
    · exact absurd hkeep hne

/-- The cycle run with an empty output fixes the state answered and the bytes emitted for every other output. -/
theorem step_out_independent (hrun : s.run = .running) : ∃ (t : State) (emitted : List Byte), ∀ o : List Byte,
    step { s with out := o } = .next { t with out := o ++ emitted } := by
  obtain ⟨t, ht⟩ := step_next_of_running (s := { s with out := [] }) hrun
  refine ⟨t, t.out, fun o => ?_⟩
  have hstep := step_prependOut o ht
  simpa [State.prependOut] using hstep

/-- Settles O41: PRN is the only effect that changes out, and bytes emitted earlier pass through a cycle unread. -/
theorem outputIsAppendOnlyAndNeverRead : Obligations.OutputIsAppendOnlyAndNeverRead :=
  ⟨construct_out,
   fun _ _ _ => exec_prn_out,
   fun _ _ => prn_of_step_out_ne,
   fun _ => step_out_independent⟩

end Sys2Proof.Machine
end

section
/-! The opcode map and the decoder (R65, R68, R82): a byte decodes exactly if it is the opcode of a row, and a byte past
the instruction's own is not consulted. -/

namespace Sys2Proof

/-! The rows and their opcodes. -/

theorem Mnemonic.mem_all (m : Mnemonic) : m ∈ Mnemonic.all := by
  cases m <;> decide

/-- No two rows share an opcode: the search for a row's opcode finds that row. -/
@[simp] theorem mnemonicOf_opcode (m : Mnemonic) : mnemonicOf m.opcode = some m := by
  cases m <;> rfl

theorem mnemonicOf_eq_none_iff {opc : Byte} : mnemonicOf opc = none ↔ ∀ m : Mnemonic, m.opcode ≠ opc := by
  simp [mnemonicOf, Mnemonic.mem_all]

theorem exists_opcode_eq_iff {opc : Byte} : (∃ m : Mnemonic, m.opcode = opc) ↔
    opc.toNat ∈ [1, 130, 71, 162, 160, 167, 69, 70, 80, 17, 84, 85, 86] := by
  have hrows : Mnemonic.all.map (fun m => m.opcode.toNat) =
      [1, 130, 71, 162, 160, 167, 69, 70, 80, 17, 84, 85, 86] := rfl
  simp [← hrows, Mnemonic.mem_all, BitVec.toNat_inj]

/-- As many numbers below `n` are outside a list of distinct ones as the list leaves over. -/
theorem length_filter_notMem_range {n : Nat} {l : List Nat} (hl : l.Nodup) (hn : ∀ k ∈ l, k < n) :
    ((List.range n).filter fun k => decide (k ∉ l)).length = n - l.length := by
  have hperm : ((List.range n).filter fun k => decide (k ∈ l)).Perm l :=
    (List.perm_ext_iff_of_nodup (List.nodup_range.filter _) hl).mpr fun k => by simpa using hn k
  have hsplit := List.length_eq_length_filter_add (l := List.range n) fun k => decide (k ∈ l)
  simp only [List.length_range, hperm.length_eq, ← decide_not] at hsplit
  omega

/-! The decoder. -/

theorem decode_opcode (m : Mnemonic) (a b : Byte) :
    decode { opc := m.opcode, operandA := a, operandB := b } = .ok (Instr.ofOperands m a b) := by
  simp [decode]

theorem decode_eq_ok_iff {l : FetchLatch} {i : Instr} : decode l = .ok i ↔
    ∃ m : Mnemonic, m.opcode = l.opc ∧ Instr.ofOperands m l.operandA l.operandB = i := by
  constructor
  · intro h
    unfold decode at h
    split at h
    next m hm =>
      cases h
      exact ⟨m, Machine.opcode_of_mnemonicOf hm, rfl⟩
    next => cases h
  · rintro ⟨m, hm, rfl⟩
    obtain ⟨opc, a, b⟩ := l
    cases hm
    exact decode_opcode m a b

theorem exists_decode_eq_ok_iff {l : FetchLatch} :
    (∃ i, decode l = .ok i) ↔ ∃ m : Mnemonic, m.opcode = l.opc := by
  simp only [decode_eq_ok_iff]
  exact ⟨fun ⟨_, m, hm, _⟩ => ⟨m, hm⟩, fun ⟨m, hm⟩ => ⟨_, m, hm, rfl⟩⟩

theorem decode_eq_error {l : FetchLatch} (h : ∀ m : Mnemonic, m.opcode ≠ l.opc) :
    decode l = .error (.unrecognizedOpcode l.opc) := by
  rw [decode, mnemonicOf_eq_none_iff.mpr h]

/-! The bytes an instruction consults: those of its length (R61, R68). -/

theorem encode_length (i : Instr) : (encode i).length = i.mnemonic.format.length := by
  cases i <;> rfl

theorem encode_length_pos (i : Instr) : 0 < (encode i).length := Nat.succ_pos _

theorem ofOperands_congr (m : Mnemonic) {a a' b b' : Byte} (ha : 2 ≤ m.format.length → a' = a)
    (hb : 3 ≤ m.format.length → b' = b) : Instr.ofOperands m a' b' = Instr.ofOperands m a b := by
  cases m with
  | hlt | ret => rfl
  | prn | psh | pop | cal | jmp | jeq | jne =>
    cases ha (by decide)
    rfl
  | ldi | mul | add | cmp =>
    cases ha (by decide)
    cases hb (by decide)
    rfl

/-- Latches that agree on the bytes of the instruction one of them decodes to decode alike. -/
theorem decode_congr {l l' : FetchLatch} {i : Instr} (h : decode l = .ok i) (hopc : l'.opc = l.opc)
    (ha : 2 ≤ (encode i).length → l'.operandA = l.operandA)
    (hb : 3 ≤ (encode i).length → l'.operandB = l.operandB) : decode l' = .ok i := by
  obtain ⟨m, hm, rfl⟩ := decode_eq_ok_iff.mp h
  rw [encode_length, Machine.mnemonic_ofOperands] at ha hb
  exact decode_eq_ok_iff.mpr ⟨m, hm.trans hopc.symm, ofOperands_congr m ha hb⟩

/-- Settles O5, row by row: each opcode decodes by its own row, and a byte that decodes is one of the rows' opcodes. -/
theorem opcodeMapOfThirteenRows : Obligations.OpcodeMapOfThirteenRows :=
  ⟨fun a b =>
    ⟨decode_opcode .hlt a b, decode_opcode .ldi a b, decode_opcode .prn a b, decode_opcode .mul a b,
     decode_opcode .add a b, decode_opcode .cmp a b, decode_opcode .psh a b, decode_opcode .pop a b,
     decode_opcode .cal a b, decode_opcode .ret a b, decode_opcode .jmp a b, decode_opcode .jeq a b,
     decode_opcode .jne a b⟩,
   rfl,
   fun _ => exists_decode_eq_ok_iff.trans exists_opcode_eq_iff⟩

end Sys2Proof
end

section
/-! The fetch and decode phases of a cycle (R81 to R83): what they read, and the faults they raise. -/

namespace Sys2Proof.Machine

variable {i : Instr} {s : State} {c : FaultCause}

/-- The three bytes from pc on, which a fetch from a pc of at most 253 latches (R81). -/
def latchAt (s : State) : FetchLatch :=
  { opc := s.mem.read s.pc.toNat
    operandA := s.mem.read (s.pc.toNat + 1)
    operandB := s.mem.read (s.pc.toNat + 2) }

theorem fetch_eq_latchAt (h : s.pc.toNat ≤ 253) : fetch s = .ok (latchAt s) := fetch_ok s h

theorem fetchDecode_of_decode_ok (hpc : s.pc.toNat ≤ 253) (h : decode (latchAt s) = .ok i) :
    fetchDecode s = .ok i := by
  simp only [fetchDecode, fetch_eq_latchAt hpc, h]

theorem fetchDecode_of_decode_error {e : DecodeError} (hpc : s.pc.toNat ≤ 253) (h : decode (latchAt s) = .error e) :
    fetchDecode s = .error (decodeCause e) := by
  simp only [fetchDecode, fetch_eq_latchAt hpc, h]

theorem fetchDecode_eq_ok_iff :
    fetchDecode s = .ok i ↔ s.pc.toNat ≤ 253 ∧ decode (latchAt s) = .ok i := by
  refine ⟨fun h => ?_, fun ⟨hpc, hd⟩ => fetchDecode_of_decode_ok hpc hd⟩
  obtain ⟨hpc, -⟩ := fetchDecode_ok h
  refine ⟨hpc, ?_⟩
  cases hd : decode (latchAt s) with
  | error e => simp [fetchDecode_of_decode_error hpc hd] at h
  | ok j => simpa [fetchDecode_of_decode_ok hpc hd] using h

/-- A byte stored past the instruction's own leaves what is fetched and decoded as it is (R68). -/
theorem fetchDecode_write_past {a : Nat} (v : Byte) (h : fetchDecode s = .ok i)
    (ha : s.pc.toNat + (encode i).length ≤ a) :
    fetchDecode { s with mem := Memory.write s.mem a v } = .ok i := by
  obtain ⟨hpc, hd⟩ := fetchDecode_eq_ok_iff.mp h
  have hkeep : ∀ k < (encode i).length,
      Memory.read (Memory.write s.mem a v) (s.pc.toNat + k) = Memory.read s.mem (s.pc.toNat + k) :=
    fun k hk => Memory.read_write_ne _ _ _ _ (by omega)
  exact fetchDecode_of_decode_ok hpc (decode_congr hd (hkeep 0 (encode_length_pos i)) (hkeep 1) (hkeep 2))

/-! The faults of the first two phases. -/

theorem step_of_fetchDecode_error (hrun : s.run = .running) (h : fetchDecode s = .error c) :
    step s = raise c s := by
  rw [step_running s hrun, h]

theorem raises_raise (c : FaultCause) (s : State) : Raises (raise c s) c := ⟨_, _, rfl, rfl, rfl⟩

/-- A fetch one of whose bytes lies outside the memory (R81). -/
theorem step_raises_outOfBounds (hrun : s.run = .running) (hpc : 253 < s.pc.toNat) :
    Raises (step s) (.outOfBounds (max 256 s.pc.toNat)) := by
  rw [step_of_fetchDecode_error hrun (fetchDecode_error s hpc)]
  exact raises_raise _ s

/-- A fetched byte that is no row's opcode (R67, R83). -/
theorem step_unrecognizedOpcode (hrun : s.run = .running) (hpc : s.pc.toNat ≤ 253)
    (h : ∀ m : Mnemonic, m.opcode ≠ s.mem.read s.pc.toNat) :
    step s = raise (.unrecognizedOpcode (s.mem.read s.pc.toNat)) s :=
  step_of_fetchDecode_error hrun (fetchDecode_of_decode_error hpc (decode_eq_error h))

theorem step_ne_next_of_faulted {r : FaultRecord} (h : s.run = .faulted r) (u : State) : step s ≠ .next u := by
  simp [step_faulted s r h]

/-- Settles O6, from the opcode map: a byte of no row is rejected by the decoder, and the fault taken is terminal. -/
theorem illegalOpcodeIsFatal : Obligations.IllegalOpcodeIsFatal := by
  refine ⟨length_filter_notMem_range (by decide) (by decide), ?_⟩
  rintro s _ _ _ ⟨hrun, hpc, rfl, rfl, rfl⟩ hillegal
  have hnone : ∀ m : Mnemonic, m.opcode ≠ s.mem.read s.pc.toNat :=
    fun m hm => hillegal (exists_opcode_eq_iff.mp ⟨m, hm⟩)
  exact ⟨_, step_unrecognizedOpcode hrun hpc hnone, rfl, step_ne_next_of_faulted rfl⟩

/-- Settles O8: a store past the instruction's own bytes misses every byte its format consults. -/
theorem unusedOperandBytesAreNotConsulted : Obligations.UnusedOperandBytesAreNotConsulted :=
  ⟨fun _ _ _ v => fetchDecode_write_past v,
   fun i => ⟨fun hz => by rw [encode_length, hz]; rfl, fun hr => by rw [encode_length, hr]; rfl⟩,
   fun _ hrun hpc => ⟨_, step_raises_outOfBounds hrun (by omega)⟩⟩

end Sys2Proof.Machine
end

section
/-! Data movement (R100, R101): LDI and PRN, and what a fault of either leaves of the output. -/

namespace Sys2Proof.Machine

variable {i : Instr} {s t : State} {c : FaultCause}

/-- The first register operand is checked before anything else the instruction does (R84). -/
theorem exec_of_first_operand_invalid {b : RegOperand} {bs : List RegOperand} (hops : i.registerOperands = b :: bs)
    (hb : 7 < b.toNat) : exec i s = raise (.invalidRegister b) s := by
  have hfirst : i.firstInvalid = some b := by
    rw [Instr.firstInvalid, hops, List.find?_cons_of_pos (by simp [invalid_of_gt hb])]
  exact exec_of_checkFault_some (by rw [checkFault, hfirst])

/-- A fetch past the top takes the fault of the first address out of range (R81). -/
theorem step_fetch_past_top (hrun : s.run = .running) (hpc : 253 < s.pc.toNat) :
    step s = raise (.outOfBounds (max 256 s.pc.toNat)) s :=
  step_of_fetchDecode_error hrun (fetchDecode_error s hpc)

/-! A fault leaves the output as it was (R101, R161). -/

theorem out_of_raise (h : raise c s = .next t) : t.out = s.out := by
  cases h
  rfl

/-- A cycle that ends Faulted changed the run state and nothing else (R161). -/
theorem eq_of_step_faults {record : FaultRecord} (h : step s = .next t) (ht : t.run = .faulted record) :
    t = { s with run := .faulted record } := by
  obtain ⟨hrun, ⟨c, _, rfl⟩ | ⟨i, _, heff⟩⟩ := step_effect_cases h
  · cases ht
    rfl
  · rcases heff.run_cases with ⟨_, hhalt⟩ | hkeep
    · simp [hhalt] at ht
    · simp [hkeep, hrun] at ht

/-- Settles O13: PRN's effect where its operand selects a register, and a fault, its own or a later one, keeps out. -/
theorem prnEmitsItsRegister : Obligations.PrnEmitsItsRegister := by
  intro s ra b
  refine ⟨decode_opcode .prn ra b, fun r hr => (Effect.prn ra r s hr).exec_eq, fun hra => ?_, fun hrun hpc => ?_,
    fun t record h ht => by rw [eq_of_step_faults h ht]⟩
  · rw [exec_of_first_operand_invalid (i := .prn ra) rfl hra]
    exact ⟨raises_raise _ s, fun t => out_of_raise⟩
  · rw [step_fetch_past_top hrun hpc]
    exact ⟨⟨_, raises_raise _ s⟩, fun t => out_of_raise⟩

/-- Settles O12: LDI's effect where its operand selects a register, and its two faults. -/
theorem ldiLoadsItsImmediate : Obligations.LdiLoadsItsImmediate := by
  intro s ra imm
  refine ⟨decode_opcode .ldi ra imm, fun r hr => (Effect.ldi ra imm r s hr).exec_eq, fun hra => ?_,
    fun hrun hpc => ⟨_, step_raises_outOfBounds hrun hpc⟩⟩
  rw [exec_of_first_operand_invalid (i := .ldi ra imm) rfl hra]
  exact raises_raise _ s

end Sys2Proof.Machine
end

section
/-! The ALU's arithmetic (R111, R112): ADD and MUL, and the order in which an instruction of two register operands checks
them (R84). -/

namespace Sys2Proof.Machine

variable {i : Instr} {ra rb : RegOperand}

/-- The second register operand is reported where the first is valid (R84). -/
theorem exec_of_second_operand_invalid {bs : List RegOperand} (s : State) (hops : i.registerOperands = ra :: rb :: bs)
    (hra : ra.toNat ≤ 7) (hrb : 7 < rb.toNat) : exec i s = raise (.invalidRegister rb) s := by
  have hfirst : i.firstInvalid = some rb := by
    rw [Instr.firstInvalid, hops, List.find?_cons_of_neg (by simp [valid_of_le hra]),
      List.find?_cons_of_pos (by simp [invalid_of_gt hrb])]
  exact exec_of_checkFault_some (by rw [checkFault, hfirst])

/-- The two operand faults of an instruction of format RR, ra's before rb's (R84). -/
theorem raises_invalidRegister_in_order (s : State) (hops : i.registerOperands = [ra, rb]) :
    (7 < ra.toNat → Raises (exec i s) (.invalidRegister ra)) ∧
    (ra.toNat ≤ 7 → 7 < rb.toNat → Raises (exec i s) (.invalidRegister rb)) := by
  refine ⟨fun hra => ?_, fun hra hrb => ?_⟩
  · rw [exec_of_first_operand_invalid hops hra]
    exact raises_raise _ s
  · rw [exec_of_second_operand_invalid s hops hra hrb]
    exact raises_raise _ s

/-- Settles O14: ADD's effect writes the sum's low byte to x[ra], whether or not ra and rb are one register. -/
theorem addWrapsModulo256 : Obligations.AddWrapsModulo256 := by
  intro s ra rb
  obtain ⟨hraFault, hrbFault⟩ := raises_invalidRegister_in_order (i := .add ra rb) s rfl
  exact ⟨decode_opcode .add ra rb,
    fun r q hr hq => ⟨_, BitVec.toNat_ofNat _ 8, (Effect.add ra rb r q s hr hq).exec_eq⟩,
    hraFault, hrbFault, fun hrun hpc => ⟨_, step_raises_outOfBounds hrun hpc⟩⟩

/-- Settles O15: MUL's effect writes the product's low byte to x[ra], whether or not ra and rb are one register. -/
theorem mulWrapsModulo256 : Obligations.MulWrapsModulo256 := by
  intro s ra rb
  obtain ⟨hraFault, hrbFault⟩ := raises_invalidRegister_in_order (i := .mul ra rb) s rfl
  exact ⟨decode_opcode .mul ra rb,
    fun r q hr hq => ⟨_, BitVec.toNat_ofNat _ 8, (Effect.mul ra rb r q s hr hq).exec_eq⟩,
    hraFault, hrbFault, fun hrun hpc => ⟨_, step_raises_outOfBounds hrun hpc⟩⟩

end Sys2Proof.Machine
end

section
/-! Condition hazards (R194): E is the outcome of the last comparison, a conditional jump reads it, and no instruction but
CMP writes it. -/

namespace Sys2Proof.Machine

variable {i : Instr} {s t u : State}

/-! CMP, then a conditional jump (R113, R144). -/

@[simp] theorem zext9_toNat (v : Byte) : (zext9 v).toNat = v.toNat :=
  BitVec.toNat_setWidth_of_le (by decide)

@[simp] theorem compareFlags_e (a b : Byte) : (compareFlags a b).e = decide (a = b) := by
  rcases compareFlags_cases a b with ⟨rfl, hf⟩ | ⟨hlt, hf⟩ | ⟨hlt, hf⟩
  · simp [hf]
  · simp [hf, ne_of_apply_ne BitVec.toNat hlt.ne']
  · simp [hf, ne_of_apply_ne BitVec.toNat hlt.ne]

/-- Where both operands select registers, CMP keeps the registers and leaves in E whether the two are equal (R113). -/
theorem exec_cmp_valid (s : State) {ra rb : RegOperand} {a b : RegIndex} (ha : ra.toNat = a.val)
    (hb : rb.toNat = b.val) :
    ∃ t, exec (.cmp ra rb) s = .next t ∧ t.regs = s.regs ∧ t.flags.e = decide (s.regs[a] = s.regs[b]) :=
  ⟨_, (Effect.cmp ra rb a b s ha hb).exec_eq, rfl, compareFlags_e _ _⟩

/-- Where the operand selects a register, a conditional jump goes to its byte if taken, and else past itself (R144). -/
theorem jumpIf_valid (taken : Bool) (s : State) {rc : RegOperand} {c : RegIndex} (hc : rc.toNat = c.val) :
    ∃ u, jumpIf taken rc s = .next u ∧
      (taken = true → u.pc.toNat = (s.regs[c]).toNat) ∧ (taken = false → u.pc = s.pc + 2) := by
  refine ⟨_, withRegister_valid rc c s _ hc, fun h => ?_, fun h => ?_⟩
  · simp [h, readReg]
  · simp [h]

/-! What runs between them leaves the flags alone (R25). -/

theorem Effect.flags_eq_of_ne_cmp (h : Effect i s t) (hi : i.mnemonic ≠ .cmp) : t.flags = s.flags := by
  cases h with
  | cmp => exact absurd rfl hi
  | _ => rfl

/-- An instruction other than CMP keeps the flags, whether it completes or faults (R25, R161). -/
theorem exec_flags_of_ne_cmp (h : exec i s = .next t) (hi : i.mnemonic ≠ .cmp) : t.flags = s.flags := by
  rcases exec_cases i s with ⟨c, _, hr⟩ | ⟨_, u, hu, heff⟩
  · rw [hr, raise_eq] at h
    cases h
    rfl
  · rw [hu] at h
    cases h
    exact heff.flags_eq_of_ne_cmp hi

theorem execAll_cons_eq_next_iff {rest : List Instr} :
    execAll (i :: rest) s = .next u ↔ ∃ t, exec i s = .next t ∧ execAll rest t = .next u := by
  rw [execAll]
  cases exec i s <;> simp

theorem execAll_flags_of_no_cmp {between : List Instr} (hno : ∀ i ∈ between, i.mnemonic ≠ .cmp)
    (h : execAll between s = .next t) : t.flags = s.flags := by
  induction between generalizing s with
  | nil =>
    cases h
    rfl
  | cons i rest ih =>
    obtain ⟨hi, hrest⟩ := List.forall_mem_cons.mp hno
    obtain ⟨u, hu, hrun⟩ := execAll_cons_eq_next_iff.mp h
    exact (ih hrest hrun).trans (exec_flags_of_ne_cmp hu hi)

/-- Settles O47: CMP leaves in E whether its registers are equal, JEQ and JNE test that E, and by induction on the list
instructions without a CMP keep it. -/
theorem branchFollowsTheLastCompare : Obligations.BranchFollowsTheLastCompare := by
  refine ⟨fun s ra rb rc a b c ha hb hc => ?_, fun _ _ _ hno h => by rw [execAll_flags_of_no_cmp hno h]⟩
  obtain ⟨t, hcmp, hregs, he⟩ := exec_cmp_valid s ha hb
  obtain ⟨u, hjeq, hu⟩ := jumpIf_valid t.flags.e t hc
  obtain ⟨v, hjne, hv⟩ := jumpIf_valid (!t.flags.e) t hc
  rw [hregs, he] at hu hv
  exact ⟨t, hcmp, hregs, ⟨u, hjeq, by simpa using hu⟩, ⟨v, hjne, by simpa using hv⟩⟩

end Sys2Proof.Machine
end

section
/-! Decoding against encoding (R60, R61, R82): the decoder reads back exactly the bytes the encoder writes, and the bit
pattern of the opcodes (R66). -/

namespace Sys2Proof

variable {l : FetchLatch} {i : Instr}

theorem decode_eq_ok_iff_mnemonic : decode l = .ok i ↔
    i.mnemonic.opcode = l.opc ∧ Instr.ofOperands i.mnemonic l.operandA l.operandB = i := by
  rw [decode_eq_ok_iff]
  refine ⟨?_, fun ⟨hopc, hops⟩ => ⟨i.mnemonic, hopc, hops⟩⟩
  rintro ⟨m, hm, rfl⟩
  simp only [Machine.mnemonic_ofOperands, hm, and_self]

/-- An instruction is its mnemonic's with the operands `a` and `b` exactly if its operand bytes begin `a`, `b`: by the
number of operand bytes of each format (R61). -/
theorem ofOperands_mnemonic_eq_iff (a b : Byte) :
    Instr.ofOperands i.mnemonic a b = i ↔ i.operandBytes <+: [a, b] := by
  cases i with
  | hlt | ret => simp [Instr.ofOperands, Instr.mnemonic, Instr.operandBytes]
  | prn ra | psh ra | pop ra | cal ra | jmp ra | jeq ra | jne ra =>
    simp [Instr.ofOperands, Instr.mnemonic, Instr.operandBytes, eq_comm]
  | ldi ra rb | mul ra rb | add ra rb | cmp ra rb =>
    simp [Instr.ofOperands, Instr.mnemonic, Instr.operandBytes, eq_comm]

/-- Settles O7: the opcode byte decides the mnemonic, and the mnemonic's format which of the other two bytes count. -/
theorem decodeAgreesWithEncode : Obligations.DecodeAgreesWithEncode := by
  intro l i
  rw [decode_eq_ok_iff_mnemonic, ofOperands_mnemonic_eq_iff, encode, FetchLatch.bytes, List.cons_prefix_cons]

/-- Settles O55, mnemonic by mnemonic. -/
theorem opcodeBitsShowTheRegularity : Obligations.OpcodeBitsShowTheRegularity := by
  intro m
  cases m <;> decide

end Sys2Proof
end

section
/-! What each execute phase changes, field by field: memory and sp by the stack instructions (R131, R132), the flags by
CMP (R25), the registers by LDI, MUL, ADD and POP, and the pc in every way an instruction can move it (R86, R140). -/

namespace Sys2Proof.Machine

variable {i : Instr} {s t : State}

/-- The mnemonics whose instructions write their first register operand. -/
def writesRegister : Mnemonic → Bool
  | .ldi | .mul | .add | .pop => true
  | .hlt | .prn | .cmp | .psh | .cal | .ret | .jmp | .jeq | .jne => false

theorem Effect.mem_cases (h : Effect i s t) :
    (pushes i = true ∧ s.sp ≠ 0 ∧ ∃ v, t.mem = Memory.write s.mem (pushAddress s) v) ∨ t.mem = s.mem := by
  cases h with
  | psh ra a _ _ hs => exact .inl ⟨rfl, hs, readReg s a, rfl⟩
  | cal ra a _ _ hs => exact .inl ⟨rfl, hs, returnAddress s, rfl⟩
  | _ => exact .inr rfl

theorem Effect.sp_cases (h : Effect i s t) :
    (pushes i = true ∧ s.sp ≠ 0 ∧ t.sp = s.sp - 1) ∨ (pops i = true ∧ s.sp ≠ 255 ∧ t.sp = s.sp + 1) ∨
    t.sp = s.sp := by
  cases h with
  | psh _ _ _ _ hs | cal _ _ _ _ hs => exact .inl ⟨rfl, hs, rfl⟩
  | pop _ _ _ _ hs | ret _ hs => exact .inr (.inl ⟨rfl, hs, rfl⟩)
  | _ => exact .inr (.inr rfl)

theorem Effect.flags_cases (h : Effect i s t) :
    (i.mnemonic = .cmp ∧ ∃ a b, t.flags = compareFlags a b) ∨ t.flags = s.flags := by
  cases h with
  | cmp => exact .inl ⟨rfl, _, _, rfl⟩
  | _ => exact .inr rfl

theorem Effect.regs_cases (h : Effect i s t) :
    (writesRegister i.mnemonic = true ∧ ∃ ra ∈ i.registerOperands.head?, ∃ (a : RegIndex) (v : Byte),
      ra.toNat = a.val ∧ t.regs = s.regs.set a v) ∨ t.regs = s.regs := by
  cases h with
  | ldi ra _ a _ ha | add ra _ a _ _ ha | mul ra _ a _ _ ha | pop ra a _ ha =>
    exact .inl ⟨rfl, ra, rfl, a, _, ha, rfl⟩
  | _ => exact .inr rfl

theorem Effect.pc_cases (h : Effect i s t) :
    (∃ n ≤ 3, t.pc = s.pc + BitVec.ofNat 9 n) ∨ ∃ v, t.pc = zext9 v := by
  cases h with
  | hlt => exact .inl ⟨0, by omega, (BitVec.add_zero s.pc).symm⟩
  | ldi | add | mul | cmp => exact .inl ⟨3, by omega, rfl⟩
  | prn | psh | pop | jeqNot | jneNot => exact .inl ⟨2, by omega, rfl⟩
  | cal | ret | jmp | jeqTaken | jneTaken => exact .inr ⟨_, rfl⟩

end Sys2Proof.Machine
end

section
/-! The checks of a cycle (R80, R84, R85, R164): the fault a cycle raises is the first failing check, a faulting cycle
changes the run state alone (R161), and which faults each phase can raise. -/

namespace Sys2Proof.Machine

variable {i : Instr} {s t : State} {c : FaultCause}

/-! The order of the checks. -/

theorem step_of_fetchDecode_ok (hrun : s.run = .running) (h : fetchDecode s = .ok i) : step s = exec i s := by
  rw [step_running s hrun, h]

theorem step_of_cycleFault_some (hrun : s.run = .running) (h : cycleFault s = some c) : step s = raise c s := by
  cases hf : fetchDecode s with
  | error d =>
    rw [cycleFault_of_fetchDecode_error hf] at h
    cases h
    exact step_of_fetchDecode_error hrun hf
  | ok i =>
    rw [cycleFault_of_fetchDecode_ok hf] at h
    rw [step_of_fetchDecode_ok hrun hf, exec_of_checkFault_some h]

theorem exec_of_checkFault_none (h : checkFault i s = none) : ∃ t, exec i s = .next t ∧ Effect i s t := by
  rcases exec_cases i s with ⟨c, hc, _⟩ | ⟨_, hnext⟩
  · simp [h] at hc
  · exact hnext

theorem step_of_cycleFault_none (hrun : s.run = .running) (h : cycleFault s = none) :
    ∃ i t, step s = .next t ∧ Effect i s t := by
  cases hf : fetchDecode s with
  | error d => simp [cycleFault_of_fetchDecode_error hf] at h
  | ok i =>
    rw [cycleFault_of_fetchDecode_ok hf] at h
    obtain ⟨t, hexec, heff⟩ := exec_of_checkFault_none h
    exact ⟨i, t, (step_of_fetchDecode_ok hrun hf).trans hexec, heff⟩

theorem Effect.safe (h : Effect i s t) (hrun : s.run = .running) : t.safe := by
  intro record ht
  rcases h.run_cases with ⟨_, hhalt⟩ | hkeep
  · simp [hhalt] at ht
  · simp [hkeep, hrun] at ht

/-- Settles O34: by the phases of a cycle, each of whose checks comes before the next. -/
theorem faultIsTheFirstFailingCheck : Obligations.FaultIsTheFirstFailingCheck := by
  refine fun s hrun => ⟨fun c => step_of_cycleFault_some hrun, fun hnone => ?_⟩
  obtain ⟨i, t, hstep, heff⟩ := step_of_cycleFault_none hrun hnone
  exact ⟨t, hstep, heff.safe hrun⟩

/-- Settles O33: a step answers only from Running, and from Running always. -/
theorem stepAnswersExactlyWhereRunning : Obligations.StepAnswersExactlyWhereRunning :=
  fun _ => ⟨fun ⟨_, h⟩ => (step_effect_cases h).1, step_next_of_running⟩

/-! The record of a fault (R161, R162). -/

theorem record_of_step_faults {record : FaultRecord} (h : step s = .next t) (ht : t.run = .faulted record) :
    record.pc = s.pc ∧ cycleFault s = some record.cause := by
  obtain ⟨hrun, ⟨c, hc, rfl⟩ | ⟨i, _, heff⟩⟩ := step_effect_cases h
  · cases ht
    exact ⟨rfl, hc⟩
  · exact absurd ht (heff.safe hrun record)

/-- Settles O35: only a failing check ends a cycle Faulted, and taking its fault writes the run state alone. -/
theorem faultsArePrecise : Obligations.FaultsArePrecise :=
  fun _ _ _ h ht => ⟨eq_of_step_faults h ht, (record_of_step_faults h ht).1⟩

/-! What a cycle raises is exactly its first failing check. -/

theorem raises_raise_iff {d : FaultCause} : Raises (raise c s) d ↔ c = d := by
  refine ⟨?_, fun h => h ▸ raises_raise c s⟩
  rintro ⟨_, record, hnext, hfaulted, rfl⟩
  cases hnext
  cases hfaulted
  rfl

theorem not_raises_of_safe {o : Host.Outcome State Fault Refusal} (h : o = .next t) (ht : t.safe) : ¬ Raises o c := by
  rintro ⟨u, record, hu, hfaulted, _⟩
  cases h.symm.trans hu
  exact ht record hfaulted

theorem raises_exec_iff (hrun : s.run = .running) : Raises (exec i s) c ↔ checkFault i s = some c := by
  cases hc : checkFault i s with
  | none =>
    obtain ⟨t, hexec, heff⟩ := exec_of_checkFault_none hc
    simp [not_raises_of_safe hexec (heff.safe hrun)]
  | some d => rw [exec_of_checkFault_some hc, raises_raise_iff, Option.some_inj]

theorem raises_step_iff (hrun : s.run = .running) : Raises (step s) c ↔ cycleFault s = some c := by
  cases hc : cycleFault s with
  | none =>
    obtain ⟨i, t, hstep, heff⟩ := step_of_cycleFault_none hrun hc
    simp [not_raises_of_safe hstep (heff.safe hrun)]
  | some d => rw [step_of_cycleFault_some hrun hc, raises_raise_iff, Option.some_inj]

/-! The faults each phase can raise. -/

theorem fetchDecode_error_cases (h : fetchDecode s = .error c) :
    (253 < s.pc.toNat ∧ c = .outOfBounds (max 256 s.pc.toNat)) ∨
    (s.pc.toNat ≤ 253 ∧ c = .unrecognizedOpcode (s.mem.read s.pc.toNat)) := by
  by_cases hpc : s.pc.toNat ≤ 253
  · refine .inr ⟨hpc, ?_⟩
    by_cases hrow : ∃ m : Mnemonic, m.opcode = (latchAt s).opc
    · obtain ⟨i, hi⟩ := exists_decode_eq_ok_iff.mpr hrow
      simp [fetchDecode_of_decode_ok hpc hi] at h
    · rw [fetchDecode_of_decode_error hpc (decode_eq_error (not_exists.mp hrow))] at h
      cases h
      rfl
  · rw [fetchDecode_error s (by omega)] at h
    cases h
    exact .inl ⟨by omega, rfl⟩

theorem firstInvalid_eq_some {b : RegOperand} (h : i.firstInvalid = some b) :
    b ∈ i.registerOperands ∧ 7 < b.toNat := by
  have hb := List.find?_some h
  simp only [RegOperand.valid, Bool.not_eq_true', decide_eq_false_iff_not] at hb
  exact ⟨List.mem_of_find?_eq_some h, by omega⟩

/-- The faults of the operand and stack checks (R84, R85). -/
theorem checkFault_cases (h : checkFault i s = some c) :
    (∃ b ∈ i.registerOperands, 7 < b.toNat ∧ c = .invalidRegister b) ∨
    (pushes i = true ∧ s.sp = 0 ∧ c = .stackOverflow 0) ∨ (pops i = true ∧ s.sp = 255 ∧ c = .stackUnderflow 255) := by
  unfold checkFault at h
  split at h
  next b hb =>
    cases h
    obtain ⟨hmem, hgt⟩ := firstInvalid_eq_some hb
    exact .inl ⟨b, hmem, hgt, rfl⟩
  next =>
    split at h
    next hpush =>
      cases h
      exact .inr (.inl ⟨hpush.1, hpush.2, by rw [hpush.2]⟩)
    next =>
      split at h
      next hpop =>
        cases h
        exact .inr (.inr ⟨hpop.1, hpop.2, by rw [hpop.2]⟩)
      next => cases h

/-- The faults of a whole cycle, by the phase that raises them (R80). -/
theorem cycleFault_cases (h : cycleFault s = some c) :
    fetchDecode s = .error c ∨ ∃ i, fetchDecode s = .ok i ∧ checkFault i s = some c := by
  cases hf : fetchDecode s with
  | error d =>
    rw [cycleFault_of_fetchDecode_error hf] at h
    cases h
    exact .inl rfl
  | ok i => exact .inr ⟨i, rfl, cycleFault_of_fetchDecode_ok hf ▸ h⟩

/-- Settles O9: the fetch checks its three addresses in order, and no later phase raises OutOfBounds. -/
theorem fetchPastTheTopRaisesOutOfBounds : Obligations.FetchPastTheTopRaisesOutOfBounds := by
  refine fun s hrun => ⟨fun hpc => ?_, fun hpc addr hraises => ?_⟩
  · exact ⟨_, step_fetch_past_top hrun hpc, by omega, by omega, by omega⟩
  · rcases cycleFault_cases ((raises_step_iff hrun).mp hraises) with hf | ⟨i, _, hc⟩
    · rcases fetchDecode_error_cases hf with ⟨hpast, _⟩ | ⟨_, hcause⟩
      · omega
      · cases hcause
    · rcases checkFault_cases hc with ⟨_, _, _, hcause⟩ | ⟨_, _, hcause⟩ | ⟨_, _, hcause⟩ <;> cases hcause

theorem cycleFault_ne_unsupportedALUOperation (op : Byte) : cycleFault s ≠ some (.unsupportedALUOperation op) := by
  intro h
  rcases cycleFault_cases h with hf | ⟨i, _, hc⟩
  · rcases fetchDecode_error_cases hf with ⟨_, hcause⟩ | ⟨_, hcause⟩ <;> cases hcause
  · rcases checkFault_cases hc with ⟨_, _, _, hcause⟩ | ⟨_, _, hcause⟩ | ⟨_, _, hcause⟩ <;> cases hcause

theorem aluApply_other {op : Byte} (a b : Byte) (h : op.toNat ∉ [160, 162, 167]) :
    aluApply op a b = .error (.unsupportedALUOperation op) := by
  have hne (m : Mnemonic) (hm : m.opcode.toNat ∈ [160, 162, 167]) : op ≠ m.opcode := fun heq => h (heq ▸ hm)
  rw [aluApply, if_neg (hne .add (by decide)), if_neg (hne .mul (by decide)), if_neg (hne .cmp (by decide))]

/-- Settles O37: the ALU's three tests all fail, and the first failing check of a cycle is never the ALU's. -/
theorem unsupportedAluOperationIsNeverRaised : Obligations.UnsupportedAluOperationIsNeverRaised := by
  refine ⟨fun op a b => aluApply_other a b, fun s t record op h ht hcause => ?_⟩
  exact cycleFault_ne_unsupportedALUOperation op (hcause ▸ (record_of_step_faults h ht).2)

/-! Register operands (R21, R84). -/

theorem exists_firstInvalid (h : ∃ b ∈ i.registerOperands, 7 < b.toNat) : ∃ b, i.firstInvalid = some b := by
  obtain ⟨b, hmem, hgt⟩ := h
  exact Option.isSome_iff_exists.mp (List.find?_isSome.mpr ⟨b, hmem, by simp [invalid_of_gt hgt]⟩)

/-- Settles O38: operand validation comes first of the checks after the decode, and is the only one to raise
InvalidRegister. -/
theorem operandBytesAboveSevenRaiseInvalidRegister : Obligations.OperandBytesAboveSevenRaiseInvalidRegister := by
  refine ⟨fun i s hbad => ?_, fun i s hrun hvalid b hraises => ?_, fun s ra imm r hr => ⟨?_, exec_prn_out hr⟩⟩
  · obtain ⟨b, hb⟩ := exists_firstInvalid hbad
    obtain ⟨hmem, hgt⟩ := firstInvalid_eq_some hb
    refine ⟨b, hmem, hgt, ?_⟩
    rw [exec_of_checkFault_some (c := .invalidRegister b) (by rw [checkFault, hb])]
    exact raises_raise _ s
  · rcases checkFault_cases ((raises_exec_iff hrun).mp hraises) with
      ⟨b', hmem, hgt, _⟩ | ⟨_, _, hcause⟩ | ⟨_, _, hcause⟩
    · have := hvalid b' hmem
      omega
    · cases hcause
    · cases hcause
  · exact ⟨_, (Effect.ldi ra imm r s hr).exec_eq, readReg_writeReg_same r imm s⟩

end Sys2Proof.Machine
end

section
/-! The invariant (R23, R25, R40, R161): canonical memory, a bounded pc, exclusive flags, a precise fault record. -/

namespace Sys2Proof.Machine

variable {i : Instr} {s t : State}

theorem compareFlags_exactlyOne (a b : Byte) : (compareFlags a b).exactlyOne := by
  rcases compareFlags_cases a b with ⟨_, hf⟩ | ⟨_, hf⟩ | ⟨_, hf⟩ <;> rw [hf] <;> decide

theorem Effect.wf (h : Effect i s t) (hwf : s.mem.wf) : t.mem.wf := by
  rcases h.mem_cases with ⟨_, _, v, hmem⟩ | hmem <;> rw [hmem]
  · exact push_wf v s hwf
  · exact hwf

theorem Effect.atMostOne (h : Effect i s t) (hflags : s.flags.atMostOne) : t.flags.atMostOne := by
  rcases h.flags_cases with ⟨_, a, b, hf⟩ | hf <;> rw [hf]
  · exact (compareFlags_exactlyOne a b).1
  · exact hflags

/-- From a pc that a fetch accepts, no instruction leaves 0..256 (R23, D6). -/
theorem Effect.pc_le (h : Effect i s t) (hpc : s.pc.toNat ≤ 253) : t.pc.toNat ≤ 256 := by
  rcases h.pc_cases with ⟨n, hn, hpc'⟩ | ⟨v, hpc'⟩ <;> rw [hpc']
  · rw [BitVec.toNat_add, BitVec.toNat_ofNat]
    omega
  · rw [zext9_toNat]
    exact Nat.le_of_lt v.isLt

/-- The checks of a cycle read pc, sp and memory only. -/
theorem cycleFault_congr (hpc : t.pc = s.pc) (hsp : t.sp = s.sp) (hmem : t.mem = s.mem) :
    cycleFault t = cycleFault s := by
  unfold cycleFault
  rw [fetchDecode_congr s t hpc hmem]
  cases fetchDecode s with
  | error c => rfl
  | ok i => exact checkFault_congr i hsp

theorem inv_of_safe (hwf : s.mem.wf) (hpc : s.pc.toNat ≤ 256) (hflags : s.flags.atMostOne) (hsafe : s.safe) : s.Inv :=
  ⟨hwf, hpc, hflags, fun record h => absurd h (hsafe record)⟩

/-- Settles O31: a fault keeps all the invariant speaks of but the record, which names the check that failed; an effect
keeps the other three parts and leaves no record. -/
theorem stepKeepsTheInvariant : Obligations.StepKeepsTheInvariant := by
  rintro s t ⟨hwf, hpc, hflags, _⟩ h
  obtain ⟨hrun, ⟨c, hc, rfl⟩ | ⟨i, hf, heff⟩⟩ := step_effect_cases h
  · refine ⟨hwf, hpc, hflags, fun record hrecord => ?_⟩
    cases hrecord
    exact ⟨rfl, (cycleFault_congr rfl rfl rfl).trans hc⟩
  · have hfetch : s.pc.toNat ≤ 253 := (fetchDecode_ok hf).1
    exact inv_of_safe (heff.wf hwf) (heff.pc_le hfetch) (heff.atMostOne hflags) (heff.safe hrun)

theorem construct_inv (regInit : RegFile) : (State.construct regInit).Inv :=
  inv_of_safe Memory.wf_nil (by simp) (by simp) (by simp [State.safe])

/-- Settles O2: no register value matters to the invariant. -/
theorem resetMeetsInvariant : Obligations.ResetMeetsInvariant := ⟨construct_inv Config.regInit, construct_inv⟩

/-- Settles O1, field by field. -/
theorem resetLeavesTheStatedValues : Obligations.ResetLeavesTheStatedValues :=
  ⟨fun regInit => ⟨construct_pc regInit, construct_sp regInit, construct_flags regInit, construct_run regInit,
    construct_out regInit, construct_regs regInit, Memory.read_nil⟩, rfl⟩

end Sys2Proof.Machine
end

section
/-! Memory as its 256 bytes (R40), and bytes placed from outside: the program image (R181) and a stored instruction word
(log 3). -/

namespace Sys2Proof.Machine

variable {m n : Memory} {s : State}

/-! A canonical memory lists exactly the bytes that differ from the reset byte. -/

theorem Memory.read_of_notMem {a : Nat} (h : ∀ c ∈ m, c.1 ≠ a) : Memory.read m a = Config.memReset := by
  induction m with
  | nil => rfl
  | cons c m ih =>
    obtain ⟨hc, hrest⟩ := List.forall_mem_cons.mp h
    exact (if_neg hc).trans (ih hrest)

theorem Memory.read_of_mem (hm : m.wf) {c : Host.Cell} (hc : c ∈ m) : Memory.read m c.1 = c.2 := by
  obtain ⟨hsorted, hcells⟩ := hm
  induction m with
  | nil => cases hc
  | cons d m ih =>
    obtain ⟨hd, hsorted⟩ := List.pairwise_cons.mp hsorted
    rcases List.mem_cons.mp hc with rfl | hc
    · exact if_pos rfl
    · have hlt : d.1 < c.1 := hd c hc
      exact (if_neg hlt.ne).trans (ih hc hsorted (List.forall_mem_cons.mp hcells).2)

theorem Memory.mem_iff_read (hm : m.wf) {c : Host.Cell} :
    c ∈ m ↔ Memory.read m c.1 = c.2 ∧ c.2 ≠ Config.memReset := by
  refine ⟨fun hc => ⟨Memory.read_of_mem hm hc, (hm.2 c hc).2⟩, fun ⟨hread, hne⟩ => ?_⟩
  by_contra hnot
  have hunlisted : ∀ d ∈ m, d.1 ≠ c.1 := fun d hd haddr =>
    hnot (Prod.ext haddr ((Memory.read_of_mem hm hd).symm.trans (haddr ▸ hread)) ▸ hd)
  exact hne (hread.symm.trans (Memory.read_of_notMem hunlisted))

theorem Memory.mem_of_reads_eq (hm : m.wf) (hn : n.wf) (h : ∀ a < 256, Memory.read m a = Memory.read n a)
    {c : Host.Cell} (hc : c ∈ m) : c ∈ n := by
  obtain ⟨hread, hne⟩ := (Memory.mem_iff_read hm).mp hc
  exact (Memory.mem_iff_read hn).mpr ⟨(h c.1 (hm.2 c hc).1).symm.trans hread, hne⟩

theorem Memory.nodup_of_wf (hm : m.wf) : m.Nodup :=
  hm.1.imp fun hlt heq => by simp [heq] at hlt

/-- Settles O4: the bytes fix which cells are listed, and the rising addresses fix their order. -/
theorem canonicalMemoryIsDeterminedByItsBytes : Obligations.CanonicalMemoryIsDeterminedByItsBytes := by
  intro m n hm hn h
  have hperm : m.Perm n := (List.perm_ext_iff_of_nodup (Memory.nodup_of_wf hm) (Memory.nodup_of_wf hn)).mpr fun _ =>
    ⟨Memory.mem_of_reads_eq hm hn h, Memory.mem_of_reads_eq hn hm fun a ha => (h a ha).symm⟩
  exact hperm.eq_of_pairwise (fun c d _ _ hcd hdc => absurd (Nat.lt_trans hcd hdc) (Nat.lt_irrefl _)) hm.1 hn.1

/-! Placing bytes at rising addresses. -/

theorem Memory.read_place_outside (bytes : List Byte) {a b : Nat} (h : b < a ∨ a + bytes.length ≤ b) :
    Memory.read (Memory.place bytes a m) b = Memory.read m b := by
  induction bytes generalizing a m with
  | nil => rfl
  | cons v vs ih =>
    rw [List.length_cons] at h
    rw [Memory.place, ih (by omega)]
    split
    · exact Memory.read_write_ne _ _ _ _ (by omega)
    · rfl

theorem Memory.read_place (bytes : List Byte) {a k : Nat} (hfit : a + bytes.length ≤ 256) (hk : k < bytes.length) :
    Memory.read (Memory.place bytes a m) (a + k) = bytes[k] := by
  induction bytes generalizing a k m with
  | nil => cases hk
  | cons v vs ih =>
    rw [List.length_cons] at hfit hk
    have ha : a < Config.memSize := by simp only [Config.memSize]; omega
    rw [Memory.place, if_pos ha]
    cases k with
    | zero => exact (Memory.read_place_outside vs (.inl (Nat.lt_succ_self a))).trans (Memory.read_write_same m a v)
    | succ k =>
      rw [show a + (k + 1) = a + 1 + k by omega]
      exact ih (by omega) (by omega)

/-- Settles O3: the image is placed byte by byte from 0, over a memory that reads 0 everywhere. -/
theorem loadPlacesImageAtZero : Obligations.LoadPlacesImageAtZero := by
  refine fun regInit image => ⟨fun hfit => ⟨_, if_pos hfit, fun i hi => ?_, fun i hi => ?_, rfl⟩,
    fun hlong => if_neg (Nat.not_le.mpr hlong)⟩
  · simpa using Memory.read_place (m := []) image (a := 0) (by omega) hi
  · exact Memory.read_place_outside image (.inr (by omega))

/-! The instruction a running machine's latch decodes to is the one its cycle runs (R80 to R82). -/

theorem latchAt_eq_iff {l : FetchLatch} : latchAt s = l ↔ s.mem.read s.pc.toNat = l.opc ∧
    s.mem.read (s.pc.toNat + 1) = l.operandA ∧ s.mem.read (s.pc.toNat + 2) = l.operandB := by
  rw [latchAt, ← FetchLatch.mk.injEq]

theorem latchAt_of_fetches {opc a b : Byte} (h : Fetches s opc a b) : latchAt s = ⟨opc, a, b⟩ :=
  latchAt_eq_iff.mpr h.2.2

theorem step_of_decode_latchAt {i : Instr} (hrun : s.run = .running) (hpc : s.pc.toNat ≤ 253)
    (h : decode (latchAt s) = .ok i) : step s = exec i s :=
  step_of_fetchDecode_ok hrun (fetchDecode_of_decode_ok hpc h)

/-- Settles O10: the three bytes are the latch. -/
theorem stepRunsTheDecodedInstruction : Obligations.StepRunsTheDecodedInstruction := by
  intro s opc a b i hf hd
  rw [← latchAt_of_fetches hf] at hd
  exact step_of_decode_latchAt hf.1 hf.2.1 hd

theorem latchAt_withFetchWord (nbits w : Nat) (hpc : s.pc.toNat ≤ 253) :
    latchAt (s.withFetchWord nbits w) = latchOfTableWord nbits w := by
  have hlen : (latchOfTableWord nbits w).bytes.length = 3 := rfl
  have hbyte {k : Nat} := Memory.read_place (m := s.mem) (a := s.pc.toNat) (k := k) (latchOfTableWord nbits w).bytes
    (by omega)
  exact latchAt_eq_iff.mpr ⟨hbyte (k := 0) (by omega), hbyte (k := 1) (by omega), hbyte (k := 2) (by omega)⟩

theorem decodeTableWord_eq_some_iff {nbits w : Nat} {i : Instr} :
    decodeTableWord nbits w = some i ↔ decode (latchOfTableWord nbits w) = .ok i := by
  unfold decodeTableWord
  cases decode (latchOfTableWord nbits w) <;> simp

/-- Settles O11: the word's bytes, placed from pc on, are what the fetch latches. -/
theorem storedTableWordIsRunNext : Obligations.StoredTableWordIsRunNext := by
  intro s nbits w i hrun hpc hword
  refine step_of_decode_latchAt (s := s.withFetchWord nbits w) hrun hpc ?_
  rw [latchAt_withFetchWord nbits w hpc, decodeTableWord_eq_some_iff.mp hword]

end Sys2Proof.Machine
end

section
/-! What one cycle can write (R24, R25, R42): the flags by a CMP, sp by the stack instructions, memory by a push. And an
instruction off the stack does not read sp. -/

namespace Sys2Proof.Machine

variable {i : Instr} {s t : State}

theorem toNat_sub_one_of_ne_zero {v : Byte} (h : v ≠ 0) : (v - 1).toNat = v.toNat - 1 := by
  bv_omega

theorem toNat_add_one_of_ne_last {v : Byte} (h : v ≠ 255) : (v + 1).toNat = v.toNat + 1 := by
  bv_omega

/-- With room on the stack, a push stores one below sp (R131). -/
theorem pushAddress_eq (h : s.sp ≠ 0) : pushAddress s = s.sp.toNat - 1 := toNat_sub_one_of_ne_zero h

theorem opcode_of_pushes (h : pushes i = true) : i.mnemonic.opcode ∈ [(0b01000101 : Byte), 0b01010000] := by
  cases i with
  | psh | cal => simp [Instr.mnemonic, Mnemonic.opcode]
  | _ => cases h

theorem opcode_of_pops (h : pops i = true) : i.mnemonic.opcode ∈ [(0b01000110 : Byte), 0b00010001] := by
  cases i with
  | pop | ret => simp [Instr.mnemonic, Mnemonic.opcode]
  | _ => cases h

/-- Settles O39: CMP is the only effect that changes the flags, and a fault keeps them. -/
theorem onlyCmpWritesTheFlags : Obligations.OnlyCmpWritesTheFlags := by
  intro s t h hne
  obtain ⟨_, ⟨c, _, rfl⟩ | ⟨i, hf, heff⟩⟩ := step_effect_cases h
  · exact absurd rfl hne
  · rcases heff.flags_cases with ⟨hcmp, _⟩ | hkeep
    · obtain ⟨hpc, hopc⟩ := fetchDecode_ok hf
      exact ⟨hpc, by rw [hopc, hcmp]; rfl⟩
    · exact absurd hkeep hne

/-- Settles O43: a push is the only effect that changes memory, at the one address it stores to. -/
theorem memoryChangesOnlyByPushes : Obligations.MemoryChangesOnlyByPushes := by
  intro s t a h hne
  obtain ⟨_, ⟨c, _, rfl⟩ | ⟨i, hf, heff⟩⟩ := step_effect_cases h
  · exact absurd rfl hne
  · rcases heff.mem_cases with ⟨hpush, hroom, v, hmem⟩ | hkeep
    · have haddr : a = pushAddress s := by
        by_contra hother
        exact hne (hmem ▸ Memory.read_write_ne s.mem _ a v hother)
      rw [pushAddress_eq hroom] at haddr
      have hpos := BitVec.toNat_pos_of_ne_zero hroom
      exact ⟨(fetchDecode_ok hf).2 ▸ opcode_of_pushes hpush, by omega⟩
    · exact absurd (by rw [hkeep]) hne

/-! sp (R24). -/

theorem sp_changes_of_step (h : step s = .next t) (hne : t.sp ≠ s.sp) :
    (Memory.read s.mem s.pc.toNat ∈ [(0b01000101 : Byte), 0b01010000] ∧ t.sp.toNat + 1 = s.sp.toNat) ∨
    (Memory.read s.mem s.pc.toNat ∈ [(0b01000110 : Byte), 0b00010001] ∧ t.sp.toNat = s.sp.toNat + 1) := by
  obtain ⟨_, ⟨c, _, rfl⟩ | ⟨i, hf, heff⟩⟩ := step_effect_cases h
  · exact absurd rfl hne
  · rw [(fetchDecode_ok hf).2]
    rcases heff.sp_cases with ⟨hpush, hroom, hsp⟩ | ⟨hpop, hitem, hsp⟩ | hkeep
    · have hpos := BitVec.toNat_pos_of_ne_zero hroom
      exact .inl ⟨opcode_of_pushes hpush, by rw [hsp, toNat_sub_one_of_ne_zero hroom]; omega⟩
    · exact .inr ⟨opcode_of_pops hpop, by rw [hsp, toNat_add_one_of_ne_last hitem]⟩
    · exact absurd hkeep hne

/-- Off the stack, an effect carries any sp along unread. -/
theorem Effect.with_sp (h : Effect i s t) (v : Byte) (hpush : pushes i = false) (hpop : pops i = false) :
    Effect i { s with sp := v } { t with sp := v } := by
  cases h with
  | psh | cal => cases hpush
  | pop | ret => cases hpop
  | hlt => exact .hlt _
  | ldi ra imm a _ ha => exact .ldi ra imm a { s with sp := v } ha
  | prn ra a _ ha => exact .prn ra a { s with sp := v } ha
  | add ra rb a b _ ha hb => exact .add ra rb a b { s with sp := v } ha hb
  | mul ra rb a b _ ha hb => exact .mul ra rb a b { s with sp := v } ha hb
  | cmp ra rb a b _ ha hb => exact .cmp ra rb a b { s with sp := v } ha hb
  | jmp ra a _ ha => exact .jmp ra a { s with sp := v } ha
  | jeqTaken ra a _ ha he => exact .jeqTaken ra a { s with sp := v } ha he
  | jeqNot ra a _ ha he => exact .jeqNot ra a { s with sp := v } ha he
  | jneTaken ra a _ ha he => exact .jneTaken ra a { s with sp := v } ha he
  | jneNot ra a _ ha he => exact .jneNot ra a { s with sp := v } ha he

theorem Effect.sp_eq (h : Effect i s t) (hpush : pushes i = false) (hpop : pops i = false) : t.sp = s.sp := by
  rcases h.sp_cases with ⟨htrue, _⟩ | ⟨htrue, _⟩ | hkeep
  · simp [hpush] at htrue
  · simp [hpop] at htrue
  · exact hkeep

/-- Off the stack, the checks of the execute phase do not read sp (R85). -/
theorem checkFault_with_sp (s : State) (v : Byte) (hpush : pushes i = false) (hpop : pops i = false) :
    checkFault i { s with sp := v } = checkFault i s := by
  simp [checkFault, hpush, hpop]

theorem exec_off_stack (s : State) (v : Byte) (hpush : pushes i = false) (hpop : pops i = false) :
    ∃ t, exec i s = .next t ∧ t.sp = s.sp ∧ exec i { s with sp := v } = .next { t with sp := v } := by
  cases hc : checkFault i s with
  | some c =>
    have hc' := (checkFault_with_sp s v hpush hpop).trans hc
    exact ⟨_, exec_of_checkFault_some hc, rfl, exec_of_checkFault_some hc'⟩
  | none =>
    obtain ⟨t, hexec, heff⟩ := exec_of_checkFault_none hc
    exact ⟨t, hexec, heff.sp_eq hpush hpop, (heff.with_sp v hpush hpop).exec_eq⟩

/-- Settles O42: the effects that write sp are those of the instructions that push or pop, and no other reads it. -/
theorem stackPointerMovesOnlyByPushAndPop : Obligations.StackPointerMovesOnlyByPushAndPop :=
  ⟨fun regInit => by rw [construct_sp]; rfl, fun _ _ => sp_changes_of_step, fun _ => exec_off_stack⟩

end Sys2Proof.Machine
end

section
/-! Runs (R88): what cycles keep over any number of them, where a run ends, and two runs side by side. -/

namespace Sys2Proof.Machine

variable {i : Instr} {s t : State}

theorem runToEnd_succ_of_step (n : Nat) (h : step s = .next t) : runToEnd (n + 1) s = runToEnd n t := by
  rw [runToEnd, h]

theorem runToEnd_of_not_running (n : Nat) (h : s.run ≠ .running) : runToEnd n s = s := by
  cases n with
  | zero => rfl
  | succ n =>
    rw [runToEnd]
    split
    next t ht => exact absurd (step_effect_cases ht).1 h
    next => rfl
    next => rfl

theorem runToEnd_add (n k : Nat) (s : State) : runToEnd (n + k) s = runToEnd k (runToEnd n s) := by
  induction n generalizing s with
  | zero => rw [Nat.zero_add, runToEnd]
  | succ n ih =>
    by_cases hrun : s.run = .running
    · obtain ⟨t, ht⟩ := step_next_of_running hrun
      rw [Nat.add_right_comm, runToEnd_succ_of_step _ ht, runToEnd_succ_of_step _ ht, ih]
    · simp only [runToEnd_of_not_running _ hrun]

/-- What every cycle keeps holds at the end of a run. -/
theorem runToEnd_induction {P : State → Prop} (hstep : ∀ u v, step u = .next v → P u → P v) (hs : P s) (n : Nat) :
    P (runToEnd n s) := by
  induction n generalizing s with
  | zero => exact hs
  | succ n ih =>
    by_cases hrun : s.run = .running
    · obtain ⟨t, ht⟩ := step_next_of_running hrun
      rw [runToEnd_succ_of_step n ht]
      exact ih (hstep s t ht hs)
    · rwa [runToEnd_of_not_running _ hrun]

/-- Settles O53: more cycles go on from the state reached, and a machine that has left Running has none. -/
theorem runEndsWhereRunLeavesRunning : Obligations.RunEndsWhereRunLeavesRunning :=
  fun s n k hstopped => (runToEnd_add n k s).trans (runToEnd_of_not_running k hstopped)

/-! The invariant along every run. -/

theorem buildMachine_inv {regInit : RegFile} {image : List Byte} (h : buildMachine regInit image = .next s) :
    s.Inv := by
  unfold buildMachine at h
  split at h
  next =>
    cases h
    obtain ⟨hwf, hpc, hflags, _⟩ := construct_inv regInit
    exact inv_of_safe (Memory.wf_place image 0 _ hwf) hpc hflags (by simp [State.safe])
  next => cases h

theorem Reachable.inv (h : Reachable s) : s.Inv := by
  induction h with
  | load regInit image s hload => exact buildMachine_inv hload
  | cycle s t _ hstep ih => exact stepKeepsTheInvariant s t ih hstep

theorem read_255_of_step (h : step s = .next t) : Memory.read t.mem 255 = Memory.read s.mem 255 := by
  by_contra hne
  have hsp : 255 + 1 = s.sp.toNat := (memoryChangesOnlyByPushes s t 255 h hne).2
  have hlt := s.sp.isLt
  omega

/-- Settles O32: by induction on the run, from the invariant of a built machine and what each step keeps. -/
theorem everyRunMeetsTheInvariant : Obligations.EveryRunMeetsTheInvariant :=
  ⟨fun _ => Reachable.inv, fun _ _ s n _ =>
    runToEnd_induction (P := fun u => Memory.read u.mem 255 = Memory.read s.mem 255)
      (fun _ _ h hu => (read_255_of_step h).trans hu) rfl n⟩

/-! G and L (R25): other flags with the same E make no cycle differ but in the flags. -/

theorem Effect.with_flags (h : Effect i s t) {f : Flags} (hf : f.e = s.flags.e) :
    ∃ g, g.e = t.flags.e ∧ Effect i (setFlags f s) (setFlags g t) := by
  cases h with
  | cmp ra rb a b _ ha hb => exact ⟨_, rfl, .cmp ra rb a b (setFlags f s) ha hb⟩
  | hlt => exact ⟨f, hf, .hlt _⟩
  | ldi ra imm a _ ha => exact ⟨f, hf, .ldi ra imm a (setFlags f s) ha⟩
  | prn ra a _ ha => exact ⟨f, hf, .prn ra a (setFlags f s) ha⟩
  | add ra rb a b _ ha hb => exact ⟨f, hf, .add ra rb a b (setFlags f s) ha hb⟩
  | mul ra rb a b _ ha hb => exact ⟨f, hf, .mul ra rb a b (setFlags f s) ha hb⟩
  | psh ra a _ ha hs => exact ⟨f, hf, .psh ra a (setFlags f s) ha hs⟩
  | pop ra a _ ha hs => exact ⟨f, hf, .pop ra a (setFlags f s) ha hs⟩
  | cal ra a _ ha hs => exact ⟨f, hf, .cal ra a (setFlags f s) ha hs⟩
  | ret _ hs => exact ⟨f, hf, .ret (setFlags f s) hs⟩
  | jmp ra a _ ha => exact ⟨f, hf, .jmp ra a (setFlags f s) ha⟩
  | jeqTaken ra a _ ha he => exact ⟨f, hf, .jeqTaken ra a (setFlags f s) ha (hf.trans he)⟩
  | jeqNot ra a _ ha he => exact ⟨f, hf, .jeqNot ra a (setFlags f s) ha (hf.trans he)⟩
  | jneTaken ra a _ ha he => exact ⟨f, hf, .jneTaken ra a (setFlags f s) ha (hf.trans he)⟩
  | jneNot ra a _ ha he => exact ⟨f, hf, .jneNot ra a (setFlags f s) ha (hf.trans he)⟩

theorem step_setFlags (h : step s = .next t) {f : Flags} (hf : f.e = s.flags.e) :
    ∃ g, g.e = t.flags.e ∧ step (setFlags f s) = .next (setFlags g t) := by
  obtain ⟨hrun, ⟨c, hc, rfl⟩ | ⟨i, hi, heff⟩⟩ := step_effect_cases h
  · have hc' : cycleFault (setFlags f s) = some c := (cycleFault_congr rfl rfl rfl).trans hc
    exact ⟨f, hf, step_of_cycleFault_some hrun hc'⟩
  · obtain ⟨g, hg, heff'⟩ := heff.with_flags hf
    have hi' : fetchDecode (setFlags f s) = .ok i := (fetchDecode_congr s _ rfl rfl).trans hi
    exact ⟨g, hg, (step_of_fetchDecode_ok (s := setFlags f s) hrun hi').trans heff'.exec_eq⟩

theorem runToEnd_setFlags (n : Nat) (s : State) {f : Flags} (hf : f.e = s.flags.e) :
    ∃ g, g.e = (runToEnd n s).flags.e ∧ runToEnd n (setFlags f s) = setFlags g (runToEnd n s) := by
  induction n generalizing s f with
  | zero => exact ⟨f, hf, rfl⟩
  | succ n ih =>
    by_cases hrun : s.run = .running
    · obtain ⟨t, ht⟩ := step_next_of_running hrun
      obtain ⟨g, hg, ht'⟩ := step_setFlags ht hf
      rw [runToEnd_succ_of_step n ht, runToEnd_succ_of_step n ht']
      exact ih t hg
    · rw [runToEnd_of_not_running _ hrun, runToEnd_of_not_running (s := setFlags f s) _ hrun]
      exact ⟨f, hf, rfl⟩

/-- Settles O40: the second machine is the first with other flags of the same E, and stays so cycle by cycle. -/
theorem greaterAndLessAreNeverConsulted : Obligations.GreaterAndLessAreNeverConsulted := by
  intro n s t ht he
  obtain ⟨g, hg, hrun⟩ := runToEnd_setFlags n s he
  rw [show t = setFlags t.flags s from ht, hrun]
  exact ⟨rfl, hg⟩

end Sys2Proof.Machine
end

section
/-! The instructions one by one (R87, R113, R133, R134, R141 to R146): encoding, effect and faults. -/

namespace Sys2Proof.Machine

variable {i : Instr} {s : State}

/-! The faults of the check phases (R84, R85). -/

theorem raises_of_first_operand_invalid {ra : RegOperand} {bs : List RegOperand} (s : State)
    (hops : i.registerOperands = ra :: bs) (hra : 7 < ra.toNat) : Raises (exec i s) (.invalidRegister ra) := by
  rw [exec_of_first_operand_invalid hops hra]
  exact raises_raise _ s

theorem firstInvalid_eq_none (h : ∀ b ∈ i.registerOperands, b.toNat ≤ 7) : i.firstInvalid = none := by
  refine List.find?_eq_none.mpr fun b hb => ?_
  simp [valid_of_le (h b hb)]

theorem raises_stackOverflow (hvalid : ∀ b ∈ i.registerOperands, b.toNat ≤ 7) (hpush : pushes i = true)
    (hsp : s.sp = 0) : Raises (exec i s) (.stackOverflow 0) := by
  have hc : checkFault i s = some (.stackOverflow 0) := by
    simp [checkFault, firstInvalid_eq_none hvalid, hpush, hsp]
  rw [exec_of_checkFault_some hc]
  exact raises_raise _ s

theorem raises_stackUnderflow (hvalid : ∀ b ∈ i.registerOperands, b.toNat ≤ 7) (hpop : pops i = true)
    (hsp : s.sp = 255) : Raises (exec i s) (.stackUnderflow 255) := by
  have hc : checkFault i s = some (.stackUnderflow 255) := by
    simp [checkFault, firstInvalid_eq_none hvalid, hpop, hsp]
  rw [exec_of_checkFault_some hc]
  exact raises_raise _ s

/-! CMP (R113). -/

theorem compareFlags_g (a b : Byte) : (compareFlags a b).g = true ↔ b.toNat < a.toNat := by
  rcases compareFlags_cases a b with ⟨rfl, hf⟩ | ⟨hlt, hf⟩ | ⟨hlt, hf⟩
  · simp [hf]
  · simp [hf, hlt]
  · simp [hf, hlt.le]

theorem compareFlags_l (a b : Byte) : (compareFlags a b).l = true ↔ a.toNat < b.toNat := by
  rcases compareFlags_cases a b with ⟨rfl, hf⟩ | ⟨hlt, hf⟩ | ⟨hlt, hf⟩
  · simp [hf]
  · simp [hf, hlt.le]
  · simp [hf, hlt]

/-- Settles O16: the flags of the comparison, and the operand faults in order. -/
theorem cmpSetsExactlyOneFlag : Obligations.CmpSetsExactlyOneFlag := by
  intro s ra rb
  obtain ⟨hraFault, hrbFault⟩ := raises_invalidRegister_in_order (i := .cmp ra rb) s rfl
  refine ⟨decode_opcode .cmp ra rb, fun r q hr hq => ?_, hraFault, hrbFault⟩
  exact ⟨_, (Effect.cmp ra rb r q s hr hq).exec_eq, compareFlags_exactlyOne _ _, by simp [readReg],
    compareFlags_g _ _, compareFlags_l _ _⟩

/-! The stack instructions (R131 to R134). -/

/-- Settles O17: PSH's effect is a push of its register, one below sp. -/
theorem pshStoresBelowTheStackPointer : Obligations.PshStoresBelowTheStackPointer := by
  intro s ra b
  refine ⟨decode_opcode .psh ra b, fun r hr hroom => ?_, raises_of_first_operand_invalid s rfl, fun hra hsp => ?_⟩
  · exact ⟨_, (Effect.psh ra r s hr hroom).exec_eq, toNat_sub_one_of_ne_zero hroom, pushAddress_eq hroom,
      Memory.read_write_same _ _ _, fun _ => Memory.read_write_ne _ _ _ _, rfl⟩
  · exact raises_stackOverflow (by simpa [Instr.registerOperands] using hra) rfl hsp

/-- Settles O18: POP's effect loads the byte at sp and keeps memory. -/
theorem popLoadsTheTopOfStack : Obligations.PopLoadsTheTopOfStack := by
  intro s ra b
  refine ⟨decode_opcode .pop ra b, fun r hr hitem => ?_, raises_of_first_operand_invalid s rfl, fun hra hsp => ?_⟩
  · exact ⟨(Effect.pop ra r s hr hitem).exec_eq, toNat_add_one_of_ne_last hitem⟩
  · exact raises_stackUnderflow (by simpa [Instr.registerOperands] using hra) rfl hsp

/-! CAL and RET (R141, R142). -/

theorem returnAddress_toNat (hpc : s.pc.toNat ≤ 253) : (returnAddress s).toNat = s.pc.toNat + 2 := by
  rw [returnAddress, BitVec.toNat_ofNat]
  omega

/-- Settles O19: CAL's effect is a push of the return address and a jump to its register. -/
theorem calPushesTheReturnAddress : Obligations.CalPushesTheReturnAddress := by
  intro s ra b
  refine ⟨decode_opcode .cal ra b, fun r hr hroom => ?_, raises_of_first_operand_invalid s rfl, fun hra hsp => ?_⟩
  · refine ⟨_, (Effect.cal ra r s hr hroom).exec_eq, zext9_toNat _, toNat_sub_one_of_ne_zero hroom,
      pushAddress_eq hroom, fun hpc => ?_, fun _ => Memory.read_write_ne _ _ _ _, rfl⟩
    rw [jump_mem, push_mem, Memory.read_write_same, returnAddress_toNat hpc]
  · exact raises_stackOverflow (by simpa [Instr.registerOperands] using hra) rfl hsp

/-- Settles O20: RET's effect is a jump to the byte at sp. -/
theorem retPopsThePc : Obligations.RetPopsThePc := by
  refine fun s a b => ⟨decode_opcode .ret a b, fun hitem => ?_,
    raises_stackUnderflow (by simp [Instr.registerOperands]) rfl⟩
  exact ⟨_, (Effect.ret s hitem).exec_eq, zext9_toNat _, toNat_add_one_of_ne_last hitem, rfl⟩

/-! The jumps (R143 to R146) and HLT (R87). -/

theorem jump_eq_self {v : Byte} (h : s.pc.toNat = v.toNat) : jump v s = s := by
  have hpc : zext9 v = s.pc := BitVec.eq_of_toNat_eq ((zext9_toNat v).trans h.symm)
  rw [jump, hpc]

/-- Settles O21: JMP's effect is a jump to its register. -/
theorem jmpSetsThePc : Obligations.JmpSetsThePc := by
  intro s ra b
  refine ⟨decode_opcode .jmp ra b, fun r hr => ?_, raises_of_first_operand_invalid s rfl,
    fun hrun hpc => ⟨_, step_raises_outOfBounds hrun hpc⟩⟩
  exact ⟨_, (Effect.jmp ra r s hr).exec_eq, zext9_toNat _, rfl, jump_eq_self⟩

/-- Where its operand selects a register, a conditional jump changes the pc alone. -/
theorem jumpIf_eq_pc (taken : Bool) (s : State) {ra : RegOperand} {r : RegIndex} {t : State} (hr : ra.toNat = r.val)
    (h : jumpIf taken ra s = .next t) : t = { s with pc := t.pc } := by
  cases ((withRegister_valid ra r s _ hr).symm.trans h)
  cases taken <;> rfl

/-- Settles O22: JEQ is the conditional jump on E. -/
theorem jeqJumpsWhereEqual : Obligations.JeqJumpsWhereEqual := by
  refine fun s ra b => ⟨decode_opcode .jeq ra b, fun r hr => ?_, raises_of_first_operand_invalid s rfl⟩
  obtain ⟨t, hexec, htaken, hnot⟩ := jumpIf_valid s.flags.e s hr
  exact ⟨t, hexec, jumpIf_eq_pc _ s hr hexec, htaken, hnot⟩

/-- Settles O23: JNE is the conditional jump on the complement of E. -/
theorem jneJumpsWhereNotEqual : Obligations.JneJumpsWhereNotEqual := by
  refine fun s ra b => ⟨decode_opcode .jne ra b, fun r hr => ?_, raises_of_first_operand_invalid s rfl⟩
  obtain ⟨t, hexec, htaken, hnot⟩ := jumpIf_valid (!s.flags.e) s hr
  exact ⟨t, hexec, jumpIf_eq_pc _ s hr hexec, by simpa using htaken, by simpa using hnot⟩

/-- Settles O24: HLT's effect writes the run state alone, and a halted machine has no cycle. -/
theorem hltHaltsAndNothingFollows : Obligations.HltHaltsAndNothingFollows := by
  refine fun s a b => ⟨decode_opcode .hlt a b, exec_hlt s, fun t h => ?_⟩
  cases h
  exact step_halted _ (halt_run s)

end Sys2Proof.Machine
end

section
/-! Frames: what an instruction that answers a next state leaves unchanged, whether it completes or faults. -/

namespace Sys2Proof.Machine

variable {i : Instr} {s t : State}

theorem exec_next_cases (h : exec i s = .next t) :
    (∃ c, t = { s with run := .faulted { pc := s.pc, cause := c } }) ∨ Effect i s t := by
  rcases exec_cases i s with ⟨c, _, hr⟩ | ⟨_, u, hu, heff⟩
  · rw [hr, raise_eq] at h
    cases h
    exact .inl ⟨c, rfl⟩
  · rw [hu] at h
    cases h
    exact .inr heff

/-! One frame per field. -/

theorem exec_mem_of_not_pushes (h : exec i s = .next t) (hi : pushes i = false) : t.mem = s.mem := by
  rcases exec_next_cases h with ⟨c, rfl⟩ | heff
  · rfl
  · exact heff.mem_cases.resolve_left (by simp [hi])

theorem exec_read_ne_pushAddress (h : exec i s = .next t) (a : Nat) (ha : a ≠ pushAddress s) :
    Memory.read t.mem a = Memory.read s.mem a := by
  rcases exec_next_cases h with ⟨c, rfl⟩ | heff
  · rfl
  · rcases heff.mem_cases with ⟨_, _, v, hmem⟩ | hmem <;> rw [hmem]
    exact Memory.read_write_ne _ _ _ _ ha

theorem exec_sp_off_stack (h : exec i s = .next t) (hpush : pushes i = false) (hpop : pops i = false) :
    t.sp = s.sp := by
  rcases exec_next_cases h with ⟨c, rfl⟩ | heff
  · rfl
  · exact heff.sp_eq hpush hpop

theorem exec_regs_of_not_writes (h : exec i s = .next t) (hi : writesRegister i.mnemonic = false) :
    t.regs = s.regs := by
  rcases exec_next_cases h with ⟨c, rfl⟩ | heff
  · rfl
  · exact heff.regs_cases.resolve_left (by simp [hi])

/-- No register but the one the first operand selects is written. -/
theorem exec_regs_ne {ra : RegOperand} {bs : List RegOperand} (h : exec i s = .next t)
    (hops : i.registerOperands = ra :: bs) (q : RegIndex) (hq : q.val ≠ ra.toNat) : t.regs[q] = s.regs[q] := by
  rcases exec_next_cases h with ⟨c, rfl⟩ | heff
  · rfl
  · rcases heff.regs_cases with ⟨_, b, hb, a, v, ha, hregs⟩ | hregs
    · obtain rfl : ra = b := by simpa [hops] using hb
      simp [hregs, show a.val ≠ q.val by omega]
    · rw [hregs]

theorem exec_out_of_ne_prn (h : exec i s = .next t) (hi : i.mnemonic ≠ .prn) : t.out = s.out := by
  rcases exec_next_cases h with ⟨c, rfl⟩ | heff
  · rfl
  · rcases heff.out_cases with ⟨ra, v, rfl, _⟩ | hkeep
    · exact absurd rfl hi
    · exact hkeep

/-- The run state after any instruction but HLT: as before, or a fault taken at this pc. -/
theorem exec_run_of_ne_hlt (h : exec i s = .next t) (hi : i ≠ .hlt) :
    t.run = s.run ∨ ∃ c, t.run = .faulted { pc := s.pc, cause := c } := by
  rcases exec_next_cases h with ⟨c, rfl⟩ | heff
  · exact .inr ⟨c, rfl⟩
  · exact .inl (heff.run_cases.resolve_left fun ⟨hhlt, _⟩ => hi hhlt)

/-! The frames of the instructions. -/

/-- The frame of an instruction that writes at most its first register operand and the pc. -/
theorem exec_frame_of_register_write {ra : RegOperand} {bs : List RegOperand} (h : exec i s = .next t)
    (hops : i.registerOperands = ra :: bs) (hpush : pushes i = false) (hpop : pops i = false)
    (hflags : i.mnemonic ≠ .cmp) (hout : i.mnemonic ≠ .prn) (hhlt : i ≠ .hlt) :
    (∀ q : RegIndex, q.val ≠ ra.toNat → t.regs[q] = s.regs[q]) ∧ t.flags = s.flags ∧ t.sp = s.sp ∧ t.out = s.out ∧
    (∀ a, Memory.read t.mem a = Memory.read s.mem a) ∧
    (t.run = s.run ∨ ∃ c, t.run = .faulted { pc := s.pc, cause := c }) :=
  ⟨exec_regs_ne h hops, exec_flags_of_ne_cmp h hflags, exec_sp_off_stack h hpush hpop, exec_out_of_ne_prn h hout,
    fun _ => by rw [exec_mem_of_not_pushes h hpush], exec_run_of_ne_hlt h hhlt⟩

/-- Settles O25: LDI, ADD and MUL write their first operand's register and the pc. -/
theorem registerWriteFrame : Obligations.RegisterWriteFrame := by
  rintro s t ra b (h | h | h) <;> exact exec_frame_of_register_write h rfl rfl rfl nofun nofun nofun

/-- Settles O26: CMP is none of the instructions that write a register, sp, out or memory. -/
theorem compareFrame : Obligations.CompareFrame := fun _ _ _ _ h =>
  ⟨exec_regs_of_not_writes h rfl, exec_sp_off_stack h rfl rfl, exec_out_of_ne_prn h nofun,
    fun _ => by rw [exec_mem_of_not_pushes h rfl], exec_run_of_ne_hlt h nofun⟩

/-- Settles O27: PRN is none of the instructions that write a register, a flag, sp or memory. -/
theorem printFrame : Obligations.PrintFrame := fun _ _ _ h =>
  ⟨exec_regs_of_not_writes h rfl, exec_flags_of_ne_cmp h nofun, exec_sp_off_stack h rfl rfl,
    fun _ => by rw [exec_mem_of_not_pushes h rfl], exec_run_of_ne_hlt h nofun⟩

/-- Settles O28: PSH and CAL write memory at the push address, and no register, flag or output. -/
theorem pushFrame : Obligations.PushFrame := by
  rintro s t ra (h | h) <;>
    exact ⟨exec_regs_of_not_writes h rfl, exec_flags_of_ne_cmp h nofun, exec_out_of_ne_prn h nofun,
      exec_read_ne_pushAddress h, exec_run_of_ne_hlt h nofun⟩

/-- Settles O29: POP and RET are none of the instructions that write memory, a flag or the output. -/
theorem popFrame : Obligations.PopFrame := by
  refine fun s t ra => ⟨fun h => exec_regs_ne h rfl, fun h => exec_regs_of_not_writes h rfl, ?_⟩
  rintro (h | h) <;>
    exact ⟨exec_flags_of_ne_cmp h nofun, exec_out_of_ne_prn h nofun, fun _ => by rw [exec_mem_of_not_pushes h rfl],
      exec_run_of_ne_hlt h nofun⟩

/-- Settles O30: the jumps and HLT are none of the instructions that write any field but pc and run. -/
theorem jumpAndHaltFrame : Obligations.JumpAndHaltFrame := by
  refine fun s t ra => ⟨?_, ?_, fun h => ?_⟩
  · rintro (h | h | h | h) <;>
      exact ⟨exec_regs_of_not_writes h rfl, exec_flags_of_ne_cmp h nofun, exec_sp_off_stack h rfl rfl,
        exec_out_of_ne_prn h nofun, fun _ => by rw [exec_mem_of_not_pushes h rfl]⟩
  · rintro (h | h | h) <;> exact exec_run_of_ne_hlt h nofun
  · cases h
    exact ⟨rfl, rfl⟩

end Sys2Proof.Machine
end

section
/-! The stack across instructions (R131, R132, R135): what was pushed is popped in reverse order. The bytes on the stack
are followed as a list, the top first. -/

namespace Sys2Proof.Machine

variable {s t : State}

/-! One push, one pop. -/

@[simp] theorem stackTop_push (v : Byte) (s : State) : stackTop (push v s) = v :=
  Memory.read_write_same s.mem (pushAddress s) v

theorem sub_one_ne_last {v : Byte} (h : v ≠ 0) : v - 1 ≠ 255 := by
  bv_omega

/-- Settles O44: the POP reads the byte the PSH stored, back into the register it came from. -/
theorem pushThenPopRestores : Obligations.PushThenPopRestores := by
  intro s ra r hr hroom
  have hpsh := (Effect.psh ra r s hr hroom).exec_eq
  have hpop := (Effect.pop ra r (advance 2 (push (readReg s r) s)) hr (sub_one_ne_last hroom)).exec_eq
  refine ⟨_, execAll_cons_eq_next_iff.mpr ⟨_, hpsh, execAll_cons_eq_next_iff.mpr ⟨_, hpop, rfl⟩⟩, ?_, ?_, ?_⟩
  · have htop : stackTop (advance 2 (push (readReg s r) s)) = s.regs[r] := stackTop_push _ s
    rw [advance_regs, writeReg_regs, htop]
    exact Vector.set_getElem_self _
  · exact BitVec.sub_add_cancel s.sp 1
  · rw [← pushAddress_eq hroom]
    exact stackTop_push _ s

/-- Settles O46: RET pops the byte CAL pushed, which is the address after CAL's operand. -/
theorem retResumesAfterTheCal : Obligations.RetResumesAfterTheCal := by
  intro s ra r hr hroom hpc
  refine ⟨_, (Effect.cal ra r s hr hroom).exec_eq, fun u hsp htop => ?_⟩
  have htop : stackTop u = returnAddress s := htop.trans (stackTop_push _ s)
  have hitem : u.sp ≠ 255 := hsp ▸ sub_one_ne_last hroom
  refine ⟨_, (Effect.ret u hitem).exec_eq, ?_, ?_⟩
  · rw [jump_pc, zext9_toNat, htop, returnAddress_toNat hpc]
  · rw [jump_sp, dropTop_sp, hsp]
    exact BitVec.sub_add_cancel s.sp 1

/-! The bytes on the stack. -/

/-- The memory holds these bytes at rising addresses from `a` on. -/
def HoldsFrom (m : Memory) : Nat → List Byte → Prop
  | _, [] => True
  | a, v :: vs => Memory.read m a = v ∧ HoldsFrom m (a + 1) vs

theorem HoldsFrom.write_below {m : Memory} {a b : Nat} {vs : List Byte} (h : HoldsFrom m a vs) (hb : b < a)
    (v : Byte) : HoldsFrom (Memory.write m b v) a vs := by
  induction vs generalizing a with
  | nil => trivial
  | cons w ws ih =>
    obtain ⟨hw, hws⟩ := h
    exact ⟨(Memory.read_write_ne m b a v hb.ne').trans hw, ih hws (by omega)⟩

/-- The bytes from sp upward are these, the top of the stack first, and all lie below 255. -/
structure State.Stack (s : State) (vs : List Byte) : Prop where
  bytes : HoldsFrom s.mem s.sp.toNat vs
  bound : s.sp.toNat + vs.length ≤ 255

theorem regByte_toNat (r : RegIndex) : (regByte r).toNat = r.val := by
  rw [regByte, BitVec.toNat_ofNat]
  omega

theorem exec_psh_stack {vs : List Byte} (h : s.Stack vs) (hroom : 0 < s.sp.toNat) (r : RegIndex) :
    ∃ t, exec (.psh (regByte r)) s = .next t ∧ t.regs = s.regs ∧ t.sp.toNat = s.sp.toNat - 1 ∧
      t.Stack (s.regs[r] :: vs) := by
  obtain ⟨hbytes, hbound⟩ := h
  have hne : s.sp ≠ 0 := by bv_omega
  have hsp := toNat_sub_one_of_ne_zero hne
  refine ⟨_, (Effect.psh _ r s (regByte_toNat r) hne).exec_eq, rfl, hsp, ⟨stackTop_push _ s, ?_⟩, ?_⟩
  · rw [advance_sp, push_sp, hsp, Nat.sub_add_cancel hroom, advance_mem, push_mem]
    exact hbytes.write_below (by rw [pushAddress_eq hne]; omega) _
  · rw [advance_sp, push_sp, hsp, List.length_cons]
    omega

theorem exec_pop_stack {v : Byte} {vs : List Byte} (h : s.Stack (v :: vs)) (r : RegIndex) :
    ∃ t, exec (.pop (regByte r)) s = .next t ∧ t.regs = s.regs.set r v ∧ t.sp.toNat = s.sp.toNat + 1 ∧
      t.Stack vs := by
  obtain ⟨⟨rfl, hbytes⟩, hbound⟩ := h
  rw [List.length_cons] at hbound
  have hne : s.sp ≠ 255 := by bv_omega
  have hsp := toNat_add_one_of_ne_last hne
  exact ⟨_, (Effect.pop _ r s (regByte_toNat r) hne).exec_eq, rfl, hsp, hsp ▸ hbytes, by
    rw [advance_sp, writeReg_sp, dropTop_sp, hsp]; omega⟩

/-! Lists of pushes and pops. -/

theorem execAll_append {is js : List Instr} (h : execAll is s = .next t) :
    execAll (is ++ js) s = execAll js t := by
  induction is generalizing s with
  | nil =>
    cases h
    rfl
  | cons i is ih =>
    obtain ⟨u, hu, hrest⟩ := execAll_cons_eq_next_iff.mp h
    rw [List.cons_append, execAll, hu]
    exact ih hrest

theorem execAll_psh {rs : List RegIndex} {vs : List Byte} (h : s.Stack vs) (hroom : rs.length ≤ s.sp.toNat) :
    ∃ t, execAll (rs.map fun r => .psh (regByte r)) s = .next t ∧ t.regs = s.regs ∧
      t.sp.toNat = s.sp.toNat - rs.length ∧ t.Stack ((rs.reverse.map fun r => s.regs[r]) ++ vs) := by
  induction rs generalizing s vs with
  | nil => exact ⟨s, rfl, rfl, rfl, h⟩
  | cons r rs ih =>
    rw [List.length_cons] at hroom
    obtain ⟨u, hu, huregs, husp, hustack⟩ := exec_psh_stack h (by omega) r
    obtain ⟨t, ht, hregs, hsp, hstack⟩ := ih hustack (by omega)
    refine ⟨t, execAll_cons_eq_next_iff.mpr ⟨u, hu, ht⟩, hregs.trans huregs, ?_, ?_⟩
    · rw [hsp, husp, List.length_cons]
      omega
    · simpa [huregs] using hstack

/-- The registers after loading these bytes one after another. -/
def loadRegs : RegFile → List RegIndex → List Byte → RegFile
  | f, r :: rs, v :: vs => loadRegs (f.set r v) rs vs
  | f, _, _ => f

theorem execAll_pop {rs : List RegIndex} {vs : List Byte} (h : s.Stack vs) (hlen : rs.length = vs.length) :
    ∃ t, execAll (rs.map fun r => .pop (regByte r)) s = .next t ∧ t.regs = loadRegs s.regs rs vs ∧
      t.sp.toNat = s.sp.toNat + rs.length := by
  induction rs generalizing s vs with
  | nil => exact ⟨s, rfl, rfl, rfl⟩
  | cons r rs ih =>
    obtain _ | ⟨v, vs⟩ := vs
    · cases hlen
    obtain ⟨u, hu, huregs, husp, hustack⟩ := exec_pop_stack h r
    obtain ⟨t, ht, hregs, hsp⟩ := ih hustack (Nat.succ.inj hlen)
    refine ⟨t, execAll_cons_eq_next_iff.mpr ⟨u, hu, ht⟩, by rw [hregs, huregs, loadRegs], ?_⟩
    rw [hsp, husp, List.length_cons]
    omega

theorem loadRegs_getElem_of_notMem {f : RegFile} {rs : List RegIndex} {vs : List Byte} {q : RegIndex} (h : q ∉ rs) :
    (loadRegs f rs vs)[q] = f[q] := by
  fun_induction loadRegs f rs vs with
  | case1 f r rs v vs ih =>
    obtain ⟨hne, hrest⟩ := not_or.mp (List.mem_cons.not.mp h)
    exact (ih hrest).trans (Vector.getElem_set_ne _ _ fun hval => hne (Fin.ext hval.symm))
  | case2 => rfl

/-- Where several bytes go to one register, the last decides. -/
theorem loadRegs_getElem {f : RegFile} {rs : List RegIndex} {vs : List Byte} {k : Nat} (hk : k < rs.length)
    (hv : k < vs.length) (hlast : ∀ (j : Nat) (hj : j < rs.length), k < j → rs[j] ≠ rs[k]) :
    (loadRegs f rs vs)[rs[k]] = vs[k] := by
  fun_induction loadRegs f rs vs generalizing k with
  | case1 f r rs v vs ih =>
    cases k with
    | zero =>
      have hnot : r ∉ rs := fun hmem => by
        obtain ⟨j, hj, hr⟩ := List.getElem_of_mem hmem
        exact hlast (j + 1) (Nat.succ_lt_succ hj) (Nat.succ_pos j) hr
      exact (loadRegs_getElem_of_notMem hnot).trans (Vector.getElem_set_self r.isLt)
    | succ k =>
      exact ih (Nat.lt_of_succ_lt_succ hk) (Nat.lt_of_succ_lt_succ hv) fun j hj hkj =>
        hlast (j + 1) (Nat.succ_lt_succ hj) (Nat.succ_lt_succ hkj)
  | case2 rs f vs hempty =>
    obtain _ | ⟨r, rs⟩ := rs
    · cases hk
    obtain _ | ⟨v, vs⟩ := vs
    · cases hv
    exact (hempty r rs v vs rfl rfl).elim

/-- Settles O45: the pushes put the registers' bytes on the stack in reverse, and the pops load them from its top. -/
theorem popsReturnPushesInReverse : Obligations.PopsReturnPushesInReverse := by
  intro s pushed popped hroom hlen
  have hempty : s.Stack [] := ⟨trivial, Nat.le_of_lt_succ s.sp.isLt⟩
  obtain ⟨t, ht, _, htsp, htstack⟩ := execAll_psh hempty hroom
  obtain ⟨u, hu, huregs, husp⟩ := execAll_pop (rs := popped) htstack (by simpa using hlen)
  refine ⟨u, (execAll_append ht).trans hu, BitVec.eq_of_toNat_eq (by omega), fun k hk hr hlast => ?_⟩
  rw [huregs, loadRegs_getElem hk (by simpa using hr) hlast]
  simp

end Sys2Proof.Machine
end

section
/-! Code that the stack reaches, and code that jumps to itself (R89, R52, R141, R143). -/

namespace Sys2Proof.Machine

variable {s : State} {ra b : Byte} {r : RegIndex}

theorem step_of_fetches {m : Mnemonic} {a : Byte} (h : Fetches s m.opcode a b) :
    step s = exec (Instr.ofOperands m a b) s :=
  stepRunsTheDecodedInstruction s m.opcode a b _ h (decode_opcode m a b)

theorem step_cal (h : Fetches s 0b01010000 ra b) : step s = exec (.cal ra) s := step_of_fetches (m := .cal) h

/-- Settles O48: the operand was latched before the push stored the return address over it. -/
theorem selfOverwritingCalUsesItsLatchedOperand : Obligations.SelfOverwritingCalUsesItsLatchedOperand := by
  intro s ra b r hfetch hr hsp
  have hroom : s.sp ≠ 0 := by bv_omega
  have haddr : pushAddress s = s.pc.toNat + 1 := by rw [pushAddress_eq hroom, hsp]; rfl
  refine ⟨_, (step_cal hfetch).trans (Effect.cal ra r s hr hroom).exec_eq, zext9_toNat _, ?_⟩
  rw [← haddr, ← returnAddress_toNat hfetch.2.1]
  exact congrArg _ (stackTop_push _ s)

/-- Settles O49: the push stores at pc + 2, where PSH leaves the pc and the next fetch latches its opcode. -/
theorem nextFetchSeesAStoredByte : Obligations.NextFetchSeesAStoredByte := by
  intro s ra b r hfetch hr hpc hsp
  have hroom : s.sp ≠ 0 := by bv_omega
  have hnext : (s.pc + 2).toNat = s.pc.toNat + 2 := by bv_omega
  have haddr : pushAddress s = s.pc.toNat + 2 := by rw [pushAddress_eq hroom, hsp]; rfl
  refine ⟨_, _, (step_of_fetches (m := .psh) hfetch).trans (Effect.psh ra r s hr hroom).exec_eq,
    fetch_eq_latchAt (hnext.trans_le hpc), ?_⟩
  have htop : Memory.read (push (readReg s r) s).mem (pushAddress s) = readReg s r := stackTop_push _ s
  rw [haddr, ← hnext] at htop
  exact htop

/-! A jump to itself. -/

/-- Settles O51: the cycle answers the state it began in, so every number of cycles does. -/
theorem selfJumpRunsForever : Obligations.SelfJumpRunsForever := by
  intro s ra b r hfetch hr htarget n
  have hstep : step s = .next s := by
    rw [step_of_fetches (m := .jmp) hfetch]
    exact (Effect.jmp ra r s hr).exec_eq.trans (congrArg _ (jump_eq_self htarget.symm))
  have hrun : runToEnd n s = s := by
    induction n with
    | zero => rfl
    | succ n ih => rw [runToEnd_succ_of_step n hstep, ih]
  exact ⟨by simp [SafeRun, hrun, State.safe, hfetch.1], hrun⟩

/-! A call to itself, above its stack. -/

/-- The state fetches a CAL to its own address, and its stack does not reach above the CAL's opcode. -/
structure CallsItself (ra b : Byte) (r : RegIndex) (s : State) : Prop where
  fetches : Fetches s 0b01010000 ra b
  operand : ra.toNat = r.val
  target  : (s.regs[r]).toNat = s.pc.toNat
  below   : s.sp.toNat ≤ s.pc.toNat

theorem fetches_push {opc a b : Byte} (v : Byte) (h : Fetches s opc a b) (haddr : pushAddress s < s.pc.toNat) :
    Fetches (push v s) opc a b := by
  obtain ⟨hrun, hpc, hopc, ha, hb⟩ := h
  have hkeep (k : Nat) : Memory.read (push v s).mem (s.pc.toNat + k) = Memory.read s.mem (s.pc.toNat + k) :=
    Memory.read_write_ne _ _ _ _ (by omega)
  exact ⟨hrun, hpc, (hkeep 0).trans hopc, (hkeep 1).trans ha, (hkeep 2).trans hb⟩

/-- While there is room, the cycle is a push and nothing else, and it misses the CAL. -/
theorem CallsItself.step_push (h : CallsItself ra b r s) (hroom : s.sp ≠ 0) :
    ∃ t, step s = .next t ∧ CallsItself ra b r t ∧ t.pc = s.pc ∧ t.sp.toNat = s.sp.toNat - 1 := by
  obtain ⟨hfetch, hr, htarget, hbelow⟩ := h
  have hpos := BitVec.toNat_pos_of_ne_zero hroom
  have hsp : (push (returnAddress s) s).sp.toNat = s.sp.toNat - 1 := toNat_sub_one_of_ne_zero hroom
  have hexec := (Effect.cal ra r s hr hroom).exec_eq
  rw [jump_eq_self (s := push (returnAddress s) s) (v := readReg s r) htarget.symm] at hexec
  exact ⟨_, (step_cal hfetch).trans hexec,
    ⟨fetches_push _ hfetch (by rw [pushAddress_eq hroom]; omega), hr, htarget, by rw [hsp, push_pc]; omega⟩, rfl, hsp⟩

theorem CallsItself.after_cycles {n : Nat} (h : CallsItself ra b r s) (hn : n ≤ s.sp.toNat) :
    CallsItself ra b r (runToEnd n s) ∧ (runToEnd n s).sp.toNat = s.sp.toNat - n ∧ (runToEnd n s).pc = s.pc := by
  induction n generalizing s with
  | zero => exact ⟨h, rfl, rfl⟩
  | succ n ih =>
    obtain ⟨t, hstep, ht, hpc, hsp⟩ := h.step_push (by bv_omega)
    obtain ⟨hu, husp, hupc⟩ := ih ht (by omega)
    rw [runToEnd_succ_of_step n hstep]
    exact ⟨hu, by omega, hupc.trans hpc⟩

theorem CallsItself.overflows (h : CallsItself ra b r s) (hsp : s.sp = 0) :
    Raises (step s) (.stackOverflow 0) := by
  have hvalid : ra.toNat ≤ 7 := by rw [h.operand]; omega
  rw [step_cal h.fetches]
  exact raises_stackOverflow (by simpa [Instr.registerOperands] using hvalid) rfl hsp

/-- Settles O50: each cycle pushes one byte below the CAL until sp is 0, and the cycle after that overflows. -/
theorem selfCallBelowItselfOverflows : Obligations.SelfCallBelowItselfOverflows := by
  intro s ra b r hfetch hr htarget hbelow
  have hself : CallsItself ra b r s := ⟨hfetch, hr, htarget, hbelow⟩
  refine ⟨fun n hn => ?_, ?_⟩
  · obtain ⟨hu, hsp, hpc⟩ := hself.after_cycles hn
    exact ⟨hu.fetches.1, by omega, hpc⟩
  · obtain ⟨hu, hsp, _⟩ := hself.after_cycles (Nat.le_refl s.sp.toNat)
    obtain ⟨t, record, hstep, hfaulted, hcause⟩ := hu.overflows (by bv_omega)
    refine ⟨record, ?_, hcause⟩
    rw [runToEnd_add, runToEnd_succ_of_step 0 hstep]
    exact hfaulted

end Sys2Proof.Machine
end

section
/-! The host's side: the end status (R184), the trace hook (R185), and the assembler's labels (R69). -/

namespace Sys2Proof.Machine

variable {s : State}

/-- Settles O52, by the run state. -/
theorem endStatusReportsRunAndOutput : Obligations.EndStatusReportsRunAndOutput := by
  refine fun s => ⟨fun h => ?_, fun h => ?_, fun record h => ?_⟩ <;> rw [endStatus, h] <;> rfl

theorem traceByte_of_lt {m : Memory} {a : Nat} (h : a < 256) : traceByte m a = some (Memory.read m a) := if_pos h

theorem traceByte_of_ge {m : Memory} {a : Nat} (h : 255 < a) : traceByte m a = none := if_neg (Nat.not_lt.mpr h)

theorem fetch_eq_ok {l : FetchLatch} (h : fetch s = .ok l) : s.pc.toNat ≤ 253 ∧ l = latchAt s := by
  by_cases hpc : s.pc.toNat ≤ 253
  · rw [fetch_eq_latchAt hpc] at h
    cases h
    exact ⟨hpc, rfl⟩
  · rw [fetch_error s (by omega)] at h
    cases h

/-- Settles O54: the hook reads the three bytes the fetch latches, each absent where its address is above 255. -/
theorem traceHookSeesTheFetchedBytes : Obligations.TraceHookSeesTheFetchedBytes := by
  refine fun s => ⟨rfl, rfl, rfl, rfl, fun l hl => ?_, traceByte_of_ge, traceByte_of_ge, traceByte_of_ge⟩
  obtain ⟨hpc, rfl⟩ := fetch_eq_ok hl
  exact ⟨traceByte_of_lt (by omega), traceByte_of_lt (by omega), traceByte_of_lt (by omega)⟩

/-! Both passes of the assembler count the same bytes. -/

theorem lineBytes_length {labels : List (String × Nat)} {line : AsmLine} {bytes : List Byte}
    (h : lineBytes labels line = some bytes) : bytes.length = lineLength line := by
  cases line with
  | ldi ra imm =>
    obtain ⟨v, _, rfl⟩ := Option.map_eq_some_iff.mp h
    rfl
  | _ =>
    cases h
    rfl

theorem bytesOf_cons_eq_some {labels : List (String × Nat)} {line : AsmLine} {rest : List AsmLine}
    {bytes : List Byte} (h : bytesOf labels (line :: rest) = some bytes) :
    ∃ bs more, lineBytes labels line = some bs ∧ bytesOf labels rest = some more ∧ bytes = bs ++ more := by
  rw [bytesOf] at h
  split at h
  next bs more hbs hmore =>
    cases h
    exact ⟨bs, more, hbs, hmore, rfl⟩
  next => cases h

/-- The first pass over a line in front: a label is recorded, and the lines after it are counted from its end. -/
theorem labelsFrom_cons (line : AsmLine) (lines : List AsmLine) (a : Nat) :
    labelsFrom (line :: lines) a = labelsFrom [line] a ++ labelsFrom lines (a + lineLength line) := by
  cases line <;> rfl

theorem labelsFrom_append {labels : List (String × Nat)} {before : List AsmLine} {bytes : List Byte}
    (after : List AsmLine) (a : Nat) (h : bytesOf labels before = some bytes) :
    labelsFrom (before ++ after) a = labelsFrom before a ++ labelsFrom after (a + bytes.length) := by
  induction before generalizing a bytes with
  | nil =>
    cases h
    rfl
  | cons line rest ih =>
    obtain ⟨bs, more, hbs, hmore, rfl⟩ := bytesOf_cons_eq_some h
    rw [List.cons_append, labelsFrom_cons, ih _ hmore, labelsFrom_cons line rest, List.append_assoc,
      List.length_append, lineBytes_length hbs, Nat.add_assoc]

/-- Settles O56: the lines before the label are counted by the length of the bytes they assemble to. -/
theorem assembledLinesHaveTheirLength : Obligations.AssembledLinesHaveTheirLength := by
  intro labels before after bytes name h
  rw [labelsFrom_append _ 0 h, Nat.zero_add, labelsFrom]

end Sys2Proof.Machine
end
